-- ==== Sys2Proof/Word.lean ====
section
/-! DEFINITION. The word types of the CHIP-8 CORE and the constants of 00_scope.md rule R2. All values are unsigned. -/

namespace Sys2Proof

/-- A memory byte, a V register, a timer, an 8-bit immediate `NN`. -/
abbrev Byte := BitVec 8

/-- An opcode, the program counter, the index register, a call stack entry. -/
abbrev Word := BitVec 16

/-- The 12-bit address immediate `NNN`. -/
abbrev Addr := BitVec 12

/-- One hexadecimal digit of an opcode. -/
abbrev Nibble := BitVec 4

/-- A register number 0 to 15, that is V0 to VF (10_state.md R11). -/
abbrev Reg := Fin 16

/-- Register 15, the implicit flag destination (10_state.md R12). -/
abbrev flagReg : Reg := 15

/-- Bytes of memory (R2 `MEM_SIZE`). -/
abbrev memSize : Nat := 4096

/-- Call stack capacity in entries (R2 `STACK_DEPTH`). -/
abbrev stackDepth : Nat := 16

/-- Frame buffer width in pixels (R2 `FB_W`). -/
abbrev fbWidth : Nat := 64

/-- Frame buffer height in pixels (R2 `FB_H`). -/
abbrev fbHeight : Nat := 32

/-- Sprite width in pixels (R2 `SPRITE_W`). -/
abbrev spriteWidth : Nat := 8

/-- First address of the glyph table (R2 `FONT_BASE`). -/
abbrev fontBase : Nat := 0x050

/-- Bytes of the glyph table (R2 `FONT_LEN`). -/
abbrev fontLen : Nat := 80

/-- Load address of the program and reset value of PC (R2 `PROG_BASE`). -/
abbrev progBase : Nat := 0x200

/-- Largest ROM image accepted (R2 `MAX_ROM`). -/
abbrev maxRom : Nat := 3584

end Sys2Proof
end

