-- ==== Sys2Proof/Config.lean ====
section
/-! DEFINITION. The three configuration parameters of 00_scope.md R3 to R6, fixed for the life of a machine. No free value
is needed: no instruction of this hardware leaves a value undefined (40_step_cycle.md R87). -/

namespace Sys2Proof

/-- The parameters of 00_scope.md R3. They are not state: no instruction reads or writes them. -/
structure Config where
  /-- `SHIFT_USES_VY` (R4): 8XY6 and 8XYE take their operand from V[Y] when true, from V[X] when false. -/
  shiftUsesVy : Bool
  /-- `STRICT_SKIP_DECODE` (R5): 5XYn and 9XYn with n not 0 are illegal when true, decode as 5XY0 and 9XY0 when false. -/
  strictSkipDecode : Bool
  /-- `FONT` (R6): the bytes Reset places at 0x050 to 0x09F. -/
  font : Vector Byte fontLen
  deriving DecidableEq, Repr

/-- The default `FONT`, the table of 10_state.md R29, five bytes a glyph, digit 0 first. PRESUMED: R29 marks these bytes as
general knowledge, not in its source (notes/assumptions/2.md); unsafe for a claim that reads a glyph byte. -/
def Config.defaultFont : Vector Byte fontLen := #v[
  0xF0, 0x90, 0x90, 0x90, 0xF0,
  0x20, 0x60, 0x20, 0x20, 0x70,
  0xF0, 0x10, 0xF0, 0x80, 0xF0,
  0xF0, 0x10, 0xF0, 0x10, 0xF0,
  0x90, 0x90, 0xF0, 0x10, 0x10,
  0xF0, 0x80, 0xF0, 0x10, 0xF0,
  0xF0, 0x80, 0xF0, 0x90, 0xF0,
  0xF0, 0x10, 0x20, 0x40, 0x40,
  0xF0, 0x90, 0xF0, 0x90, 0xF0,
  0xF0, 0x90, 0xF0, 0x10, 0xF0,
  0xF0, 0x90, 0xF0, 0x90, 0x90,
  0xE0, 0x90, 0xE0, 0x90, 0xE0,
  0xF0, 0x80, 0x80, 0x80, 0xF0,
  0xE0, 0x90, 0x90, 0x90, 0xE0,
  0xF0, 0x80, 0xF0, 0x80, 0xF0,
  0xF0, 0x80, 0xF0, 0x80, 0x80]

/-- The default configuration, which is this hardware wherever the spec does not name a parameter (00_scope.md R3). -/
def Config.default : Config where
  shiftUsesVy := true
  strictSkipDecode := true
  font := Config.defaultFont

end Sys2Proof
end

