-- ==== Sys2Proof/Syntax.lean ====
section
/-! DEFINITION. The 25 instructions of 30_encoding.md R63, one constructor per row of spec/opcode_table.json. -/

namespace Sys2Proof

/-- An instruction with its operand fields (30_encoding.md R61): `x`, `y` register numbers, `nn` an 8-bit immediate, `nnn` a
12-bit address, `n` a 4-bit row count. The pattern of each row stands beside its constructor. -/
inductive Instr where
  /-- `00E0` -/
  | cls
  /-- `00EE` -/
  | ret
  /-- `1NNN` -/
  | jp (nnn : Addr)
  /-- `2NNN` -/
  | call (nnn : Addr)
  /-- `3XNN` -/
  | seImm (x : Reg) (nn : Byte)
  /-- `4XNN` -/
  | sneImm (x : Reg) (nn : Byte)
  /-- `5XY0` -/
  | seReg (x y : Reg)
  /-- `6XNN` -/
  | ldImm (x : Reg) (nn : Byte)
  /-- `7XNN` -/
  | addImm (x : Reg) (nn : Byte)
  /-- `8XY0` -/
  | ldReg (x y : Reg)
  /-- `8XY1` -/
  | or (x y : Reg)
  /-- `8XY2` -/
  | and (x y : Reg)
  /-- `8XY3` -/
  | xor (x y : Reg)
  /-- `8XY4` -/
  | addReg (x y : Reg)
  /-- `8XY5` -/
  | sub (x y : Reg)
  /-- `8XY6` -/
  | shr (x y : Reg)
  /-- `8XY7` -/
  | subn (x y : Reg)
  /-- `8XYE` -/
  | shl (x y : Reg)
  /-- `9XY0` -/
  | sneReg (x y : Reg)
  /-- `ANNN` -/
  | ldI (nnn : Addr)
  /-- `DXYN` -/
  | drw (x y : Reg) (n : Nibble)
  /-- `FX1E` -/
  | addI (x : Reg)
  /-- `FX33` -/
  | bcd (x : Reg)
  /-- `FX55` -/
  | stRegs (x : Reg)
  /-- `FX65` -/
  | ldRegs (x : Reg)
  deriving DecidableEq, Repr

end Sys2Proof
end

