-- ==== Sys2Proof/WellFormed.lean ====
section
/-! DEFINITION. What is well formed before any machine runs: an opcode word (the mask and match table of 30_encoding.md R63,
kept apart from the decoder so that the two can be proved to agree) and an assembler line (R74). A term of `Instr` needs no
check of its own: the types of its fields are exactly the fields of R61, and every value of a field is legal (R62). -/

namespace Sys2Proof

/-- The names of the 25 rows of 30_encoding.md R63, in the table's order. -/
inductive RowId where
  | CLS | RET | JP | CALL | SE_IMM | SNE_IMM | SE_REG | LD_IMM | ADD_IMM | LD_REG | OR | AND | XOR | ADD_REG | SUB | SHR
  | SUBN | SHL | SNE_REG | LD_I | DRW | ADD_I | BCD | ST_REGS | LD_REGS
  deriving DecidableEq, Repr

/-- One row of the opcode map: a word `op` selects the row when `op AND mask = bits` (R63). -/
structure OpcodeRow where
  id : RowId
  mask : Word
  bits : Word
  deriving DecidableEq, Repr

/-- The opcode map of R63. With `strict = false` the rows 5XY0 and 9XY0 use mask 0xF000 (R68). -/
def opcodeTable (strict : Bool) : List OpcodeRow :=
  let skipMask : Word := if strict then 0xF00F else 0xF000
  [⟨.CLS, 0xFFFF, 0x00E0⟩, ⟨.RET, 0xFFFF, 0x00EE⟩, ⟨.JP, 0xF000, 0x1000⟩, ⟨.CALL, 0xF000, 0x2000⟩,
   ⟨.SE_IMM, 0xF000, 0x3000⟩, ⟨.SNE_IMM, 0xF000, 0x4000⟩, ⟨.SE_REG, skipMask, 0x5000⟩] ++
  [⟨.LD_IMM, 0xF000, 0x6000⟩, ⟨.ADD_IMM, 0xF000, 0x7000⟩, ⟨.LD_REG, 0xF00F, 0x8000⟩, ⟨.OR, 0xF00F, 0x8001⟩,
   ⟨.AND, 0xF00F, 0x8002⟩, ⟨.XOR, 0xF00F, 0x8003⟩, ⟨.ADD_REG, 0xF00F, 0x8004⟩, ⟨.SUB, 0xF00F, 0x8005⟩,
   ⟨.SHR, 0xF00F, 0x8006⟩, ⟨.SUBN, 0xF00F, 0x8007⟩, ⟨.SHL, 0xF00F, 0x800E⟩] ++
  [⟨.SNE_REG, skipMask, 0x9000⟩, ⟨.LD_I, 0xF000, 0xA000⟩, ⟨.DRW, 0xF000, 0xD000⟩, ⟨.ADD_I, 0xF0FF, 0xF01E⟩,
   ⟨.BCD, 0xF0FF, 0xF033⟩, ⟨.ST_REGS, 0xF0FF, 0xF055⟩, ⟨.LD_REGS, 0xF0FF, 0xF065⟩]

/-- `op AND mask = match` (R63). -/
def OpcodeRow.selects (row : OpcodeRow) (op : Word) : Bool := (op &&& row.mask) == row.bits

/-- A word is legal when some row of the opcode map selects it (R67). -/
def wordLegal (strict : Bool) (op : Word) : Bool := (opcodeTable strict).any (·.selects op)

/-- The row an instruction belongs to. -/
def Instr.row : Instr → RowId
  | .cls => .CLS
  | .ret => .RET
  | .jp _ => .JP
  | .call _ => .CALL
  | .seImm _ _ => .SE_IMM
  | .sneImm _ _ => .SNE_IMM
  | .seReg _ _ => .SE_REG
  | .ldImm _ _ => .LD_IMM
  | .addImm _ _ => .ADD_IMM
  | .ldReg _ _ => .LD_REG
  | .or _ _ => .OR
  | .and _ _ => .AND
  | .xor _ _ => .XOR
  | .addReg _ _ => .ADD_REG
  | .sub _ _ => .SUB
  | .shr _ _ => .SHR
  | .subn _ _ => .SUBN
  | .shl _ _ => .SHL
  | .sneReg _ _ => .SNE_REG
  | .ldI _ => .LD_I
  | .drw _ _ _ => .DRW
  | .addI _ => .ADD_I
  | .bcd _ => .BCD
  | .stRegs _ => .ST_REGS
  | .ldRegs _ => .LD_REGS

/-- The mnemonics of the assembler form of 30_encoding.md R74. -/
inductive AsmName where
  | CLS | RET | JP | CALL | SE | SNE | LD | ADD | OR | AND | XOR | SUB | SHR | SUBN | SHL | DRW
  deriving DecidableEq, Repr

/-- An operand as it is written (R74): `Vx`, a number, `I`, `B` or `[I]`. -/
inductive AsmOperand where
  | v (r : Nat)
  | num (n : Nat)
  | i
  | b
  | atI
  deriving DecidableEq, Repr

/-- One line of an assembler listing (R74): an instruction, or a data byte `DB nn`. -/
inductive AsmLine where
  | op (name : AsmName) (args : List AsmOperand)
  | db (n : Nat)
  deriving DecidableEq, Repr

/-- The lines R74 allows: the operand shape of a row, registers V0 to VF, `nnn` to 0xFFF, `nn` to 0xFF, `n` to 0xF. -/
def AsmLine.wellFormed : AsmLine → Bool
  | .op .CLS [] => true
  | .op .RET [] => true
  | .op .JP [.num n] => decide (n < 0x1000)
  | .op .CALL [.num n] => decide (n < 0x1000)
  | .op .SE [.v x, .num n] => decide (x < 16 ∧ n < 0x100)
  | .op .SNE [.v x, .num n] => decide (x < 16 ∧ n < 0x100)
  | .op .SE [.v x, .v y] => decide (x < 16 ∧ y < 16)
  | .op .SNE [.v x, .v y] => decide (x < 16 ∧ y < 16)
  | .op .LD [.v x, .num n] => decide (x < 16 ∧ n < 0x100)
  | .op .ADD [.v x, .num n] => decide (x < 16 ∧ n < 0x100)
  | .op .LD [.v x, .v y] => decide (x < 16 ∧ y < 16)
  | .op .OR [.v x, .v y] => decide (x < 16 ∧ y < 16)
  | .op .AND [.v x, .v y] => decide (x < 16 ∧ y < 16)
  | .op .XOR [.v x, .v y] => decide (x < 16 ∧ y < 16)
  | .op .ADD [.v x, .v y] => decide (x < 16 ∧ y < 16)
  | .op .SUB [.v x, .v y] => decide (x < 16 ∧ y < 16)
  | .op .SHR [.v x, .v y] => decide (x < 16 ∧ y < 16)
  | .op .SUBN [.v x, .v y] => decide (x < 16 ∧ y < 16)
  | .op .SHL [.v x, .v y] => decide (x < 16 ∧ y < 16)
  | .op .LD [.i, .num n] => decide (n < 0x1000)
  | .op .DRW [.v x, .v y, .num n] => decide (x < 16 ∧ y < 16 ∧ n < 0x10)
  | .op .ADD [.i, .v x] => decide (x < 16)
  | .op .LD [.b, .v x] => decide (x < 16)
  | .op .LD [.atI, .v x] => decide (x < 16)
  | .op .LD [.v x, .atI] => decide (x < 16)
  | .db n => decide (n < 0x100)
  | _ => false

end Sys2Proof
end

