-- ==== Sys2Proof/Decode.lean ====
section
/-! DEFINITION. The fields of an opcode, the decoder, total on any word and any bytes and rejecting by name, and the encoder
(30_encoding.md R60 to R74). -/

namespace Sys2Proof

/-- The class nibble `C = op[15:12]` (R61). -/
def opClass (op : Word) : Nibble := op.extractLsb' 12 4

/-- The field `X = op[11:8]`, a register number (R61). -/
def fieldX (op : Word) : Reg := (op.extractLsb' 8 4).toFin

/-- The field `Y = op[7:4]`, a register number (R61). -/
def fieldY (op : Word) : Reg := (op.extractLsb' 4 4).toFin

/-- The field `N = op[3:0]` (R61). -/
def fieldN (op : Word) : Nibble := op.extractLsb' 0 4

/-- The field `NN = op[7:0]` (R61). -/
def fieldNN (op : Word) : Byte := op.extractLsb' 0 8

/-- The field `NNN = op[11:0]` (R61). -/
def fieldNNN (op : Word) : Addr := op.extractLsb' 0 12

/-- Why a word, or a list of bytes, is no instruction. Every illegal word raises UnknownOpcode (R67), whatever its name here. -/
inductive DecodeError where
  /-- Fewer than two bytes: not an opcode at all (R60). The fetch of a step always has two. -/
  | truncated
  /-- 0NNN other than 00E0 and 00EE (R65). -/
  | class0
  /-- 5XYn with n not 0 under `STRICT_SKIP_DECODE` (R68). -/
  | class5LowNibble
  /-- 8XYn with n in 8 to 0xD or n = 0xF (R66). -/
  | class8
  /-- 9XYn with n not 0 under `STRICT_SKIP_DECODE` (R68). -/
  | class9LowNibble
  /-- Class B, the absent BNNN (R70). -/
  | classB
  /-- Class C, the absent CXNN (R70). -/
  | classC
  /-- Class E, the absent EX9E and EXA1 among it (R70). -/
  | classE
  /-- FXnn with nn none of 1E, 33, 55, 65 (R71). -/
  | classF
  deriving DecidableEq, Repr

/-- Class 8: the low nibble selects the operation (R66). -/
def decodeClass8 (op : Word) : Except DecodeError Instr :=
  match (fieldN op).toNat with
  | 0x0 => .ok (.ldReg (fieldX op) (fieldY op))
  | 0x1 => .ok (.or (fieldX op) (fieldY op))
  | 0x2 => .ok (.and (fieldX op) (fieldY op))
  | 0x3 => .ok (.xor (fieldX op) (fieldY op))
  | 0x4 => .ok (.addReg (fieldX op) (fieldY op))
  | 0x5 => .ok (.sub (fieldX op) (fieldY op))
  | 0x6 => .ok (.shr (fieldX op) (fieldY op))
  | 0x7 => .ok (.subn (fieldX op) (fieldY op))
  | 0xE => .ok (.shl (fieldX op) (fieldY op))
  | _ => .error .class8

/-- Class F: the low byte selects the operation (R71). -/
def decodeClassF (op : Word) : Except DecodeError Instr :=
  if fieldNN op = 0x1E then .ok (.addI (fieldX op))
  else if fieldNN op = 0x33 then .ok (.bcd (fieldX op))
  else if fieldNN op = 0x55 then .ok (.stRegs (fieldX op))
  else if fieldNN op = 0x65 then .ok (.ldRegs (fieldX op))
  else .error .classF

/-- Decode, by the class nibble (R64). It depends on the word and on `STRICT_SKIP_DECODE` only (40_step_cycle.md R83). -/
def decodeWith (strict : Bool) (op : Word) : Except DecodeError Instr :=
  match (opClass op).toNat with
  | 0x0 => if op = 0x00E0 then .ok .cls else if op = 0x00EE then .ok .ret else .error .class0
  | 0x1 => .ok (.jp (fieldNNN op))
  | 0x2 => .ok (.call (fieldNNN op))
  | 0x3 => .ok (.seImm (fieldX op) (fieldNN op))
  | 0x4 => .ok (.sneImm (fieldX op) (fieldNN op))
  | 0x5 => if strict && fieldN op != 0 then .error .class5LowNibble else .ok (.seReg (fieldX op) (fieldY op))
  | 0x6 => .ok (.ldImm (fieldX op) (fieldNN op))
  | 0x7 => .ok (.addImm (fieldX op) (fieldNN op))
  | 0x8 => decodeClass8 op
  | 0x9 => if strict && fieldN op != 0 then .error .class9LowNibble else .ok (.sneReg (fieldX op) (fieldY op))
  | 0xA => .ok (.ldI (fieldNNN op))
  | 0xB => .error .classB
  | 0xC => .error .classC
  | 0xD => .ok (.drw (fieldX op) (fieldY op) (fieldN op))
  | 0xE => .error .classE
  | _ => decodeClassF op

/-- The decoder of this hardware: `STRICT_SKIP_DECODE` at its default (00_scope.md R5). -/
def decode (op : Word) : Except DecodeError Instr := decodeWith Config.default.strictSkipDecode op

/-- The opcode of two consecutive bytes, big-endian: the byte at the lower address is the high byte (20_memory.md R43). -/
def opcodeOfBytes (hi lo : Byte) : Word := hi ++ lo

/-- Decode the first instruction of a list of bytes and return it with the rest of the list. Every instruction has two bytes (R60). -/
def decodeBytes (strict : Bool) : List Byte → Except DecodeError (Instr × List Byte)
  | hi :: lo :: rest =>
    match decodeWith strict (opcodeOfBytes hi lo) with
    | .ok i => .ok (i, rest)
    | .error e => .error e
  | _ => .error .truncated

/-- A register number as the four bits of an opcode field. -/
def regBits (r : Reg) : Nibble := BitVec.ofFin r

/-- The word of four nibbles, `C·4096 + X·256 + Y·16 + N` (R74). -/
def wordXYN (c : Nibble) (x y : Reg) (n : Nibble) : Word := c ++ regBits x ++ regBits y ++ n

/-- The word of a class, a register and a low byte. -/
def wordXNN (c : Nibble) (x : Reg) (nn : Byte) : Word := c ++ regBits x ++ nn

/-- The word of a class and a 12-bit address. -/
def wordNNN (c : Nibble) (nnn : Addr) : Word := c ++ nnn

/-- The encoder, from the patterns of R63. -/
def encode : Instr → Word
  | .cls => 0x00E0
  | .ret => 0x00EE
  | .jp nnn => wordNNN 0x1 nnn
  | .call nnn => wordNNN 0x2 nnn
  | .seImm x nn => wordXNN 0x3 x nn
  | .sneImm x nn => wordXNN 0x4 x nn
  | .seReg x y => wordXYN 0x5 x y 0x0
  | .ldImm x nn => wordXNN 0x6 x nn
  | .addImm x nn => wordXNN 0x7 x nn
  | .ldReg x y => wordXYN 0x8 x y 0x0
  | .or x y => wordXYN 0x8 x y 0x1
  | .and x y => wordXYN 0x8 x y 0x2
  | .xor x y => wordXYN 0x8 x y 0x3
  | .addReg x y => wordXYN 0x8 x y 0x4
  | .sub x y => wordXYN 0x8 x y 0x5
  | .shr x y => wordXYN 0x8 x y 0x6
  | .subn x y => wordXYN 0x8 x y 0x7
  | .shl x y => wordXYN 0x8 x y 0xE
  | .sneReg x y => wordXYN 0x9 x y 0x0
  | .ldI nnn => wordNNN 0xA nnn
  | .drw x y n => wordXYN 0xD x y n
  | .addI x => wordXNN 0xF x 0x1E
  | .bcd x => wordXNN 0xF x 0x33
  | .stRegs x => wordXNN 0xF x 0x55
  | .ldRegs x => wordXNN 0xF x 0x65

/-- The high byte of an opcode, the one at the lower address (20_memory.md R43). -/
def highByte (op : Word) : Byte := op.extractLsb' 8 8

/-- The low byte of an opcode. -/
def lowByte (op : Word) : Byte := op.extractLsb' 0 8

/-- The two bytes of an instruction in memory order (20_memory.md R43). -/
def encodeBytes (i : Instr) : List Byte := [highByte (encode i), lowByte (encode i)]

/-- The word of a table row: the low `nbits` bits of `w`, the bits above them 0. -/
def tableWord (nbits w : Nat) : Word := BitVec.ofNat 16 (w % 2 ^ nbits)

/-- What the decoder reads from a table row's word laid out as the hardware stores it, high byte first (R60). -/
def decodeTableWord (nbits w : Nat) : Option Instr :=
  match decodeBytes Config.default.strictSkipDecode [highByte (tableWord nbits w), lowByte (tableWord nbits w)] with
  | .ok (i, _) => some i
  | .error _ => none

end Sys2Proof
end

