-- ==== Sys2Proof/Machine/Memory.lean ====
section
/-! DEFINITION. Memory: 4096 bytes for code and data (10_state.md R26, 20_memory.md R41, R48), held as a list of cells in one
canonical form: addresses strictly rising, every address below 4096, no cell equal to what an unlisted address reads as. -/

namespace Sys2Proof.Machine

/-- Memory as plain data. -/
abbrev Memory := List Host.Cell

/-- What an address that nothing has written reads as: its value after Reset with an empty ROM (10_state.md R30), that is the
default FONT at 0x050 to 0x09F and 0 everywhere else. A Reset with another FONT writes its own bytes (`State.load`). -/
def Memory.unlisted (a : Nat) : Byte :=
  if h : fontBase ≤ a ∧ a < fontBase + fontLen then Config.default.font[a - fontBase]'(by omega) else 0

/-- The byte a cell list holds at an address. -/
def Memory.get : Memory → Nat → Byte
  | [], a => Memory.unlisted a
  | (k, b) :: rest, a => if k = a then b else Memory.get rest a

/-- Put a cell at its place in a list ordered by address. -/
def Memory.insertCell (a : Nat) (b : Byte) : Memory → Memory
  | [] => [(a, b)]
  | (k, c) :: rest => if a < k then (a, b) :: (k, c) :: rest else (k, c) :: Memory.insertCell a b rest

/-- Make an address hold a byte. A byte equal to what the unlisted address reads as leaves no cell. -/
def Memory.set (m : Memory) (a : Nat) (b : Byte) : Memory :=
  let others := m.filter (fun c => decide (c.1 ≠ a))
  if b = Memory.unlisted a then others else Memory.insertCell a b others

/-- `MemRead(addr, 1)`: only the low 12 bits of the address are used (20_memory.md R42). No access fails. -/
def Memory.read (m : Memory) (addr : Nat) : Byte := m.get (addr % memSize)

/-- `MemWrite(addr, 1, v)`: only the low 12 bits of the address are used (20_memory.md R42). -/
def Memory.write (m : Memory) (addr : Nat) (b : Byte) : Memory := m.set (addr % memSize) b

/-- Write bytes at consecutive addresses in ascending order (20_memory.md R51), each address reduced on its own. -/
def Memory.writeBytes (m : Memory) (addr : Nat) : List Byte → Memory
  | [] => m
  | b :: bs => Memory.writeBytes (m.write addr b) (addr + 1) bs

/-- The canonical form. -/
abbrev Memory.wf (m : Memory) : Prop :=
  m.Pairwise (fun c d => c.1 < d.1) ∧ ∀ c ∈ m, c.1 < memSize ∧ c.2 ≠ Memory.unlisted c.1

end Sys2Proof.Machine
end

