-- ==== Sys2Proof/Machine/State.lean ====
section
/-! DEFINITION. The state of the machine (10_state.md R10: eleven elements and nothing else), the reasons a step could stop,
and the state right after Reset (10_state.md R30). -/

namespace Sys2Proof.Machine

/-- The frame buffer, 32 rows of 64 one-bit pixels (10_state.md R23): bit `x` of row `y` is `FB[x][y]`. It is read and written
through `FrameBuffer.pixel`, `FrameBuffer.flip` and `FrameBuffer.clear` only. -/
abbrev FrameBuffer := Vector (BitVec 64) fbHeight

/-- `FAULT.kind` (10_state.md R25); `FaultKind.code` gives the numeric codes of 60_exceptions.md R140. -/
inductive FaultKind where
  | none
  | romTooLarge
  | unknownOpcode
  | stackOverflow
  | stackUnderflow
  deriving DecidableEq, Repr

/-- The fault latch `FAULT`: kind, fetch address and opcode of the offending instruction (10_state.md R25). -/
structure FaultRecord where
  kind : FaultKind
  pc : Word
  opcode : Word
  deriving DecidableEq, Repr

/-- No fault: kind None, the other two fields 0 (10_state.md R25). -/
def FaultRecord.clear : FaultRecord := ⟨.none, 0, 0⟩

/-- The architectural state (10_state.md R10). -/
structure State where
  /-- Memory, 4096 bytes (R26). -/
  mem : Memory
  /-- V0 to VF (R11). -/
  v : Vector Byte 16
  /-- The index register I (R14). -/
  idx : Word
  /-- The program counter PC (R15). -/
  pc : Word
  /-- The call stack entries, the stale ones above SP among them (R19, R33). -/
  stack : Vector Word stackDepth
  /-- The call stack depth SP, 0 to 16 (R19). -/
  sp : Fin 17
  /-- The delay timer DT (R22). -/
  dt : Byte
  /-- The sound timer ST (R22). -/
  st : Byte
  /-- The frame buffer FB (R23). -/
  fb : FrameBuffer
  /-- The redraw flag REDRAW (R24). -/
  redraw : Bool
  /-- The fault latch FAULT (R25). -/
  fault : FaultRecord
  deriving DecidableEq, Repr

/-- Why a step would stop the machine. There is no such reason, so the type has no constructor: the four fatal errors of
60_exceptions.md R140 are taken as the spec describes them, by latching `State.fault`, and the machine keeps a state that Tick,
the host's reads and Reset act on (R143). Nobody raises a fault; this is safe. -/
inductive Fault where
  deriving DecidableEq, Repr

/-- Why a step would give an instruction no meaning. -/
inductive Refusal where
  /-- An instruction of the opcode table without a meaning yet. Raised by no arm of exec: every instruction has its meaning.
  Safe: a run would stop where the hardware goes on. -/
  | notModelled (mnemonic : String)
  deriving DecidableEq, Repr

/-- The machine right after `Reset` with an empty ROM and the default configuration (10_state.md R30, 70_reset_and_hazards.md
R170): everything 0, PC at 0x0200, the glyph table at 0x050 (what unlisted memory reads as), no fault. -/
def State.reset : State where
  mem := []
  v := Vector.replicate 16 0
  idx := 0
  pc := 0x0200
  stack := Vector.replicate stackDepth 0
  sp := 0
  dt := 0
  st := 0
  fb := Vector.replicate fbHeight 0
  redraw := false
  fault := FaultRecord.clear

end Sys2Proof.Machine
end

