-- ==== Sys2Proof/Machine/Ops.lean ====
section
/-! DEFINITION. The named operations over registers, memory, program counter, call stack, frame buffer and fault latch. Every
meaning is built from these. -/

namespace Sys2Proof.Machine

/-- `V[r]` (10_state.md R11). -/
def State.readV (s : State) (r : Reg) : Byte := s.v[r.val]

/-- `V[r] <- b` (10_state.md R11). -/
def State.writeV (s : State) (r : Reg) (b : Byte) : State := { s with v := s.v.set r.val b }

/-- `MemRead(addr, 1)` (20_memory.md R42). -/
def State.readMem (s : State) (addr : Nat) : Byte := s.mem.read addr

/-- Single-byte stores at consecutive addresses, ascending (20_memory.md R42, R51). -/
def State.storeBytes (s : State) (addr : Nat) (bytes : List Byte) : State := { s with mem := s.mem.writeBytes addr bytes }

/-- `I <- w` (10_state.md R14). -/
def State.setIdx (s : State) (w : Word) : State := { s with idx := w }

/-- `pc <- w` (10_state.md R15). -/
def State.setPc (s : State) (w : Word) : State := { s with pc := w }

/-- The opcode at an address: two byte reads, high byte first, each address reduced modulo 4096 (20_memory.md R42, R43). -/
def State.wordAt (s : State) (addr : Nat) : Word := opcodeOfBytes (s.readMem addr) (s.readMem (addr + 1))

/-- The opcode the next step fetches (40_step_cycle.md R81). Fetch never fails. -/
def State.fetch (s : State) : Word := s.wordAt s.pc.toNat

/-- The program counter two bytes on, modulo 65536: the advance before execution (40_step_cycle.md R82), and once more what a
skip adds (41_control_flow.md R97). -/
def State.advance (s : State) : State := s.setPc (s.pc + 2)

/-- `Push(w)` on a stack that is not full; none where SP = 16 (10_state.md R20). -/
def State.push (s : State) (w : Word) : Option State :=
  if h : s.sp.val < stackDepth then
    some { s with stack := s.stack.set s.sp.val w, sp := ⟨s.sp.val + 1, by simp only [stackDepth] at h; omega⟩ }
  else none

/-- `Pop()`: the popped entry and the state with SP one lower; none where SP = 0. The entry stays in place (10_state.md R21, R33). -/
def State.pop (s : State) : Option (Word × State) :=
  if h : 0 < s.sp.val then
    some (s.stack[s.sp.val - 1]'(by simp only [stackDepth]; omega), { s with sp := ⟨s.sp.val - 1, by omega⟩ })
  else none

/-- Taking a fatal error, `raise K(a, op)` (60_exceptions.md R141, 40_step_cycle.md R85): FAULT is latched and nothing else
changes. It is applied to the state whose PC is already advanced. There is no return from it (R148): only Reset leaves it. -/
def State.raise (s : State) (kind : FaultKind) (a op : Word) : State := { s with fault := ⟨kind, a, op⟩ }

/-- The address the executing instruction was fetched from: PC was advanced by 2 before execution (40_step_cycle.md R82), so it
is PC - 2 modulo 65536. DEDUCED (notes/assumptions/4.md), safe: the two additions cancel exactly. -/
def State.fetchAddress (s : State) : Word := s.pc - 2

/-- What a step does whose fetched word no row of the opcode map selects: PC is advanced, UnknownOpcode is raised with the fetch
address and the word (40_step_cycle.md R80, R83). -/
def State.raiseUnknown (s : State) : State := s.advance.raise .unknownOpcode s.pc s.fetch

/-- The state with a word at PC and PC + 1, high byte first, and no fault latched: the next step fetches it. -/
def State.placeWord (s : State) (op : Word) : State :=
  { s.storeBytes s.pc.toNat [highByte op, lowByte op] with fault := FaultRecord.clear }

/-- The machine runs: no fault is latched (10_state.md R25). -/
def State.running (s : State) : Bool := decide (s.fault.kind = .none)

/-- The numeric code of an error kind (60_exceptions.md R140). -/
def FaultKind.code : FaultKind → Nat
  | .none => 0
  | .romTooLarge => 1
  | .unknownOpcode => 2
  | .stackOverflow => 3
  | .stackUnderflow => 4

/-- The pixel in column `x mod 64` and row `y mod 32` (10_state.md R23). -/
def FrameBuffer.pixel (fb : FrameBuffer) (x y : Nat) : Bool :=
  (fb[y % fbHeight]'(Nat.mod_lt _ (by decide))).getLsbD (x % fbWidth)

/-- `FB[x][y] <- FB[x][y] XOR 1`, the coordinates reduced modulo 64 and 32 (44_display.md R132). -/
def FrameBuffer.flip (fb : FrameBuffer) (x y : Nat) : FrameBuffer :=
  fb.set (y % fbHeight) ((fb[y % fbHeight]'(Nat.mod_lt _ (by decide))) ^^^ BitVec.twoPow 64 (x % fbWidth))
    (Nat.mod_lt _ (by decide))

/-- Every pixel 0. -/
def FrameBuffer.clear : FrameBuffer := Vector.replicate fbHeight 0

/-- Write the frame buffer and set the redraw flag, as 00E0 and DXYN do (10_state.md R24, 90_conflicts.md C1). -/
def State.putFrame (s : State) (fb : FrameBuffer) : State := { s with fb := fb, redraw := true }

/-- The sprite engine's accumulator: the frame buffer so far and whether a pixel has gone from 1 to 0. -/
abbrev Canvas := FrameBuffer × Bool

/-- One sprite bit on one pixel: a 0 bit does nothing; a 1 bit flips the pixel and reports a collision when it was 1 (44_display.md R131). -/
def Canvas.put (k : Canvas) (x y : Nat) (bit : Bool) : Canvas :=
  if bit then (k.1.flip x y, k.2 || k.1.pixel x y) else k

/-- The first `n` columns of one sprite row, the most significant bit at column `x` (44_display.md R131). -/
def Canvas.putRow (k : Canvas) (x y : Nat) (row : Byte) : Nat → Canvas
  | 0 => k
  | c + 1 => (k.putRow x y row c).put (x + c) y (row.getLsbD (7 - c))

/-- The first `n` rows of a sprite whose bytes lie at `addr`, drawn from (x, y) (44_display.md R131). -/
def Canvas.putSprite (k : Canvas) (m : Memory) (addr x y : Nat) : Nat → Canvas
  | 0 => k
  | r + 1 => (k.putSprite m addr x y r).putRow x (y + r) (m.read (addr + r)) spriteWidth

/-- `V[0..n-1] <- bytes from addr on`, ascending (43_index_memory.md R124). -/
def State.loadRegs (s : State) (addr : Nat) : Nat → State
  | 0 => s
  | k + 1 => (s.loadRegs addr k).writeV (Fin.ofNat 16 k) (s.readMem (addr + k))

end Sys2Proof.Machine
end

