-- ==== Sys2Proof/Machine/Flags.lean ====
section
/-! DEFINITION. The flag computations (10_state.md R27, 42_register_alu.md R113) and the one order of result and flag writes
(42_register_alu.md R100). -/

namespace Sys2Proof.Machine

/-- A flag as the byte 0 or 1 that VF receives. -/
def flagByte (b : Bool) : Byte := if b then 1 else 0

/-- 8XY4: 1 when a + b > 255 (R107). -/
def carryOut (a b : Byte) : Bool := decide (a.toNat + b.toNat > 255)

/-- 8XY5 and 8XY7: no borrow from a - b, that is a ≥ b, unsigned (R108, R110). -/
def noBorrow (a b : Byte) : Bool := decide (a.toNat ≥ b.toNat)

/-- 8XY6: the bit shifted out, bit 0 (R109). -/
def shiftedOutRight (t : Byte) : Bool := t.getLsbD 0

/-- 8XYE: the bit shifted out, bit 7 (R111). -/
def shiftedOutLeft (t : Byte) : Bool := t.getLsbD 7

/-- `VF <- flag`. -/
def State.writeFlag (s : State) (flag : Bool) : State := s.writeV flagReg (flagByte flag)

/-- The result to V[X] first, the flag to VF last: with X = 15 the flag stays (R100). DESIGN CHOICE of the spec itself (D5). -/
def State.writeResult (s : State) (x : Reg) (result : Byte) (flag : Bool) : State := (s.writeV x result).writeFlag flag

end Sys2Proof.Machine
end

