-- ==== Sys2Proof/Machine/Operands.lean ====
section
/-! DEFINITION. The operand forms: immediates into PC and I (30_encoding.md R62), the shift operand (42_register_alu.md R109,
R111), the data address (43_index_memory.md R125). -/

namespace Sys2Proof.Machine

/-- A 12-bit immediate into PC or I: zero-extended, bits 15 to 12 become 0 (R62). -/
def zext16 (nnn : Addr) : Word := nnn.setWidth 16

/-- The operand of 8XY6 and 8XYE: V[Y] when `SHIFT_USES_VY`, else V[X] (R109, R111). -/
def State.shiftOperand (s : State) (usesVy : Bool) (x y : Reg) : Byte := if usesVy then s.readV y else s.readV x

/-- The address of data byte 0, I; byte k is at I + k and the access reduces it modulo 4096 (R125). -/
def State.dataAddress (s : State) : Nat := s.idx.toNat

/-- The bytes of V0 to VX, ascending, as FX55 stores them (R123). -/
def State.regBytes (s : State) (x : Reg) : List Byte := s.v.toList.take (x.val + 1)

/-- I after a transfer of V0 to VX: X + 1 higher, modulo 65536 (R126). -/
def State.idxAfterTransfer (s : State) (x : Reg) : Word := s.idx + BitVec.ofNat 16 (x.val + 1)

/-- The decimal digits of a byte, hundreds first (R122). -/
def decimalDigits (v : Byte) : List Byte :=
  [BitVec.ofNat 8 (v.toNat / 100), BitVec.ofNat 8 (v.toNat / 10 % 10), BitVec.ofNat 8 (v.toNat % 10)]

end Sys2Proof.Machine
end

