-- ==== Sys2Proof/Machine/Alu.lean ====
section
/-! DEFINITION. The register and arithmetic-logic instructions (42_register_alu.md). Operands are read once, before any write;
the result goes to V[X], the flag to VF last (R100). All arithmetic is unsigned and wraps modulo 256 (R112). -/

namespace Sys2Proof.Machine

/-- `6XNN` (R101). -/
def execLdImm (x : Reg) (nn : Byte) (s : State) : Host.Outcome State Fault Refusal := .next (s.writeV x nn)

/-- `7XNN`: no flag (R102). -/
def execAddImm (x : Reg) (nn : Byte) (s : State) : Host.Outcome State Fault Refusal := .next (s.writeV x (s.readV x + nn))

/-- `8XY0` (R103). -/
def execLdReg (x y : Reg) (s : State) : Host.Outcome State Fault Refusal := .next (s.writeV x (s.readV y))

/-- `8XY1`: no flag (R104). -/
def execOr (x y : Reg) (s : State) : Host.Outcome State Fault Refusal := .next (s.writeV x (s.readV x ||| s.readV y))

/-- `8XY2`: no flag (R105). -/
def execAnd (x y : Reg) (s : State) : Host.Outcome State Fault Refusal := .next (s.writeV x (s.readV x &&& s.readV y))

/-- `8XY3`: no flag (R106). -/
def execXor (x y : Reg) (s : State) : Host.Outcome State Fault Refusal := .next (s.writeV x (s.readV x ^^^ s.readV y))

/-- `8XY4` (R107). -/
def execAddReg (x y : Reg) (s : State) : Host.Outcome State Fault Refusal :=
  .next (s.writeResult x (s.readV x + s.readV y) (carryOut (s.readV x) (s.readV y)))

/-- `8XY5` (R108). -/
def execSub (x y : Reg) (s : State) : Host.Outcome State Fault Refusal :=
  .next (s.writeResult x (s.readV x - s.readV y) (noBorrow (s.readV x) (s.readV y)))

/-- `8XY7` (R110). -/
def execSubn (x y : Reg) (s : State) : Host.Outcome State Fault Refusal :=
  .next (s.writeResult x (s.readV y - s.readV x) (noBorrow (s.readV y) (s.readV x)))

/-- A shift right by one of operand `t` into V[X] (R109). -/
def State.shiftRight (s : State) (x : Reg) (t : Byte) : State := s.writeResult x (t >>> 1) (shiftedOutRight t)

/-- A shift left by one of operand `t` into V[X] (R111). -/
def State.shiftLeft (s : State) (x : Reg) (t : Byte) : State := s.writeResult x (t <<< 1) (shiftedOutLeft t)

/-- `8XY6` at either value of `SHIFT_USES_VY` (R109). -/
def execShrWith (usesVy : Bool) (x y : Reg) (s : State) : Host.Outcome State Fault Refusal :=
  .next (s.shiftRight x (s.shiftOperand usesVy x y))

/-- `8XYE` at either value of `SHIFT_USES_VY` (R111). -/
def execShlWith (usesVy : Bool) (x y : Reg) (s : State) : Host.Outcome State Fault Refusal :=
  .next (s.shiftLeft x (s.shiftOperand usesVy x y))

/-- `8XY6` of this hardware: the parameter at its default (00_scope.md R4). -/
def execShr (x y : Reg) (s : State) : Host.Outcome State Fault Refusal := execShrWith Config.default.shiftUsesVy x y s

/-- `8XYE` of this hardware: the parameter at its default (00_scope.md R4). -/
def execShl (x y : Reg) (s : State) : Host.Outcome State Fault Refusal := execShlWith Config.default.shiftUsesVy x y s

end Sys2Proof.Machine
end

