-- ==== Sys2Proof/Machine/Control.lean ====
section
/-! DEFINITION. The control-transfer instructions (41_control_flow.md). Each is applied to the state whose PC is already
advanced past the instruction (40_step_cycle.md R82). -/

namespace Sys2Proof.Machine

/-- `00EE` (R90). -/
def execRet (s : State) : Host.Outcome State Fault Refusal :=
  match s.pop with
  | some (w, t) => .next (t.setPc w)
  | none => .next (s.raise .stackUnderflow s.fetchAddress (encode .ret))

/-- `1NNN` (R91). -/
def execJp (nnn : Addr) (s : State) : Host.Outcome State Fault Refusal := .next (s.setPc (zext16 nnn))

/-- `2NNN` (R92). -/
def execCall (nnn : Addr) (s : State) : Host.Outcome State Fault Refusal :=
  match s.push s.pc with
  | some t => .next (t.setPc (zext16 nnn))
  | none => .next (s.raise .stackOverflow s.fetchAddress (encode (.call nnn)))

/-- "Skip next instruction (PC += 2)", exactly two bytes whatever they hold (R97). -/
def State.skipIf (s : State) (cond : Bool) : State := if cond then s.advance else s

/-- `3XNN` (R93). -/
def execSeImm (x : Reg) (nn : Byte) (s : State) : Host.Outcome State Fault Refusal := .next (s.skipIf (s.readV x == nn))

/-- `4XNN` (R94). -/
def execSneImm (x : Reg) (nn : Byte) (s : State) : Host.Outcome State Fault Refusal := .next (s.skipIf (s.readV x != nn))

/-- `5XY0` (R95). -/
def execSeReg (x y : Reg) (s : State) : Host.Outcome State Fault Refusal := .next (s.skipIf (s.readV x == s.readV y))

/-- `9XY0` (R96). -/
def execSneReg (x y : Reg) (s : State) : Host.Outcome State Fault Refusal := .next (s.skipIf (s.readV x != s.readV y))

end Sys2Proof.Machine
end

