-- ==== Sys2Proof/Machine/Display.lean ====
section
/-! DEFINITION. The display instructions (44_display.md). Both set REDRAW on every execution (90_conflicts.md C1). -/

namespace Sys2Proof.Machine

/-- `00E0`: every pixel 0, VF untouched (R130). -/
def execCls (s : State) : Host.Outcome State Fault Refusal := .next (s.putFrame FrameBuffer.clear)

/-- The frame buffer and the collision flag after a sprite of `n` rows at (V[X], V[Y]), its bytes at I (R131). -/
def State.sprite (s : State) (x y : Reg) (n : Nibble) : Canvas :=
  Canvas.putSprite (s.fb, false) s.mem s.dataAddress (s.readV x).toNat (s.readV y).toNat n.toNat

/-- `DXYN`: the sprite first, VF once at the end (R131). -/
def execDrw (x y : Reg) (n : Nibble) (s : State) : Host.Outcome State Fault Refusal :=
  .next ((s.putFrame (s.sprite x y n).1).writeFlag (s.sprite x y n).2)

end Sys2Proof.Machine
end

