-- ==== Sys2Proof/Machine/Index.lean ====
section
/-! DEFINITION. The index-register, load and store instructions (43_index_memory.md). None writes a flag, none can fail. -/

namespace Sys2Proof.Machine

/-- `ANNN` (R120). -/
def execLdI (nnn : Addr) (s : State) : Host.Outcome State Fault Refusal := .next (s.setIdx (zext16 nnn))

/-- `FX1E`: modulo 65536, VF untouched (R121). -/
def execAddI (x : Reg) (s : State) : Host.Outcome State Fault Refusal :=
  .next (s.setIdx (s.idx + (s.readV x).setWidth 16))

/-- `FX33`: hundreds, tens, ones at I, I + 1, I + 2 (R122). -/
def execBcd (x : Reg) (s : State) : Host.Outcome State Fault Refusal :=
  .next (s.storeBytes s.dataAddress (decimalDigits (s.readV x)))

/-- `FX55`: store V0 to VX at I, then I += X + 1 (R123). -/
def execStRegs (x : Reg) (s : State) : Host.Outcome State Fault Refusal :=
  .next ((s.storeBytes s.dataAddress (s.regBytes x)).setIdx (s.idxAfterTransfer x))

/-- `FX65`: load V0 to VX from I, then I += X + 1 (R124). -/
def execLdRegs (x : Reg) (s : State) : Host.Outcome State Fault Refusal :=
  .next ((s.loadRegs s.dataAddress (x.val + 1)).setIdx (s.idxAfterTransfer x))

end Sys2Proof.Machine
end

