-- ==== Sys2Proof/Machine/Step.lean ====
section
/-! DEFINITION. One `Step` (40_step_cycle.md R80) and the placing of an instruction where the next step fetches it. -/

namespace Sys2Proof.Machine

/-- `Step` (R80): with a fault latched nothing changes (60_exceptions.md R143); otherwise fetch, advance PC by 2, decode, and
execute, or raise UnknownOpcode with the fetch address and the word (R83). -/
def step (s : State) : Host.Outcome State Fault Refusal :=
  if s.running then
    match decode s.fetch with
    | .ok i => exec i s.advance
    | .error _ => .next s.raiseUnknown
  else .next s

/-- The state with one instruction's two bytes at PC and PC + 1, high byte first, and no fault latched, so that the very next
step fetches and runs it (notes/assumptions/5.md). -/
def State.withFetchWord (s : State) (nbits w : Nat) : State :=
  s.placeWord (tableWord nbits w)

end Sys2Proof.Machine
end

