-- ==== Sys2Proof/Assembler.lean ====
section
/-! DEFINITION. The assembler form of 30_encoding.md R74. It carries no semantics: the pattern is the normative name. -/

namespace Sys2Proof

/-- The line R74 writes for an instruction. -/
def Instr.toAsm : Instr → AsmLine
  | .cls => .op .CLS []
  | .ret => .op .RET []
  | .jp nnn => .op .JP [.num nnn.toNat]
  | .call nnn => .op .CALL [.num nnn.toNat]
  | .seImm x nn => .op .SE [.v x.val, .num nn.toNat]
  | .sneImm x nn => .op .SNE [.v x.val, .num nn.toNat]
  | .seReg x y => .op .SE [.v x.val, .v y.val]
  | .ldImm x nn => .op .LD [.v x.val, .num nn.toNat]
  | .addImm x nn => .op .ADD [.v x.val, .num nn.toNat]
  | .ldReg x y => .op .LD [.v x.val, .v y.val]
  | .or x y => .op .OR [.v x.val, .v y.val]
  | .and x y => .op .AND [.v x.val, .v y.val]
  | .xor x y => .op .XOR [.v x.val, .v y.val]
  | .addReg x y => .op .ADD [.v x.val, .v y.val]
  | .sub x y => .op .SUB [.v x.val, .v y.val]
  | .shr x y => .op .SHR [.v x.val, .v y.val]
  | .subn x y => .op .SUBN [.v x.val, .v y.val]
  | .shl x y => .op .SHL [.v x.val, .v y.val]
  | .sneReg x y => .op .SNE [.v x.val, .v y.val]
  | .ldI nnn => .op .LD [.i, .num nnn.toNat]
  | .drw x y n => .op .DRW [.v x.val, .v y.val, .num n.toNat]
  | .addI x => .op .ADD [.i, .v x.val]
  | .bcd x => .op .LD [.b, .v x.val]
  | .stRegs x => .op .LD [.atI, .v x.val]
  | .ldRegs x => .op .LD [.v x.val, .atI]

/-- A register number as an operand carries it; `AsmLine.wellFormed` has checked its range. -/
def regOfNat (n : Nat) : Reg := Fin.ofNat 16 n

/-- The instruction of a line's name and operands, before the range check. -/
def AsmLine.shape : AsmLine → Option Instr
  | .op .CLS [] => some .cls
  | .op .RET [] => some .ret
  | .op .JP [.num n] => some (.jp (BitVec.ofNat 12 n))
  | .op .CALL [.num n] => some (.call (BitVec.ofNat 12 n))
  | .op .SE [.v x, .num n] => some (.seImm (regOfNat x) (BitVec.ofNat 8 n))
  | .op .SNE [.v x, .num n] => some (.sneImm (regOfNat x) (BitVec.ofNat 8 n))
  | .op .SE [.v x, .v y] => some (.seReg (regOfNat x) (regOfNat y))
  | .op .SNE [.v x, .v y] => some (.sneReg (regOfNat x) (regOfNat y))
  | .op .LD [.v x, .num n] => some (.ldImm (regOfNat x) (BitVec.ofNat 8 n))
  | .op .ADD [.v x, .num n] => some (.addImm (regOfNat x) (BitVec.ofNat 8 n))
  | .op .LD [.v x, .v y] => some (.ldReg (regOfNat x) (regOfNat y))
  | .op .OR [.v x, .v y] => some (.or (regOfNat x) (regOfNat y))
  | .op .AND [.v x, .v y] => some (.and (regOfNat x) (regOfNat y))
  | .op .XOR [.v x, .v y] => some (.xor (regOfNat x) (regOfNat y))
  | .op .ADD [.v x, .v y] => some (.addReg (regOfNat x) (regOfNat y))
  | .op .SUB [.v x, .v y] => some (.sub (regOfNat x) (regOfNat y))
  | .op .SHR [.v x, .v y] => some (.shr (regOfNat x) (regOfNat y))
  | .op .SUBN [.v x, .v y] => some (.subn (regOfNat x) (regOfNat y))
  | .op .SHL [.v x, .v y] => some (.shl (regOfNat x) (regOfNat y))
  | .op .LD [.i, .num n] => some (.ldI (BitVec.ofNat 12 n))
  | .op .DRW [.v x, .v y, .num n] => some (.drw (regOfNat x) (regOfNat y) (BitVec.ofNat 4 n))
  | .op .ADD [.i, .v x] => some (.addI (regOfNat x))
  | .op .LD [.b, .v x] => some (.bcd (regOfNat x))
  | .op .LD [.atI, .v x] => some (.stRegs (regOfNat x))
  | .op .LD [.v x, .atI] => some (.ldRegs (regOfNat x))
  | _ => none

/-- The bytes a line assembles to: two for an instruction, high byte first, one for `DB`; none for a line R74 does not allow. -/
def AsmLine.assemble (line : AsmLine) : Option (List Byte) :=
  if line.wellFormed then
    match line with
    | .db n => some [BitVec.ofNat 8 n]
    | .op name args => ((AsmLine.op name args).shape).map encodeBytes
  else none

/-- The name as R74 spells it. -/
def AsmName.text : AsmName → String
  | .CLS => "CLS"
  | .RET => "RET"
  | .JP => "JP"
  | .CALL => "CALL"
  | .SE => "SE"
  | .SNE => "SNE"
  | .LD => "LD"
  | .ADD => "ADD"
  | .OR => "OR"
  | .AND => "AND"
  | .XOR => "XOR"
  | .SUB => "SUB"
  | .SHR => "SHR"
  | .SUBN => "SUBN"
  | .SHL => "SHL"
  | .DRW => "DRW"

/-- An operand as R74 writes it: `Vx` with one hexadecimal digit, a number in decimal, `I`, `B`, `[I]`. -/
def AsmOperand.text : AsmOperand → String
  | .v r => "V" ++ String.ofList (Nat.toDigits 16 r |>.map Char.toUpper)
  | .num n => toString n
  | .i => "I"
  | .b => "B"
  | .atI => "[I]"

/-- A whole line as text (R74). -/
def AsmLine.text : AsmLine → String
  | .op name [] => name.text
  | .op name args => name.text ++ " " ++ ", ".intercalate (args.map AsmOperand.text)
  | .db n => "DB " ++ toString n

end Sys2Proof
end

