-- ==== Sys2Proof/Machine/Configured.lean ====
section
/-! DEFINITION. The machine at any configuration (00_scope.md R3: "a model takes them as arguments"). `exec` and `step` are its
values at `Config.default`. -/

namespace Sys2Proof.Machine

/-- Execution under a configuration. Two instructions read a parameter (R109, R111); every other one is `exec`'s. -/
def execWith (cfg : Config) (i : Instr) (s : State) : Host.Outcome State Fault Refusal :=
  match i with
  | .shr x y => execShrWith cfg.shiftUsesVy x y s
  | .shl x y => execShlWith cfg.shiftUsesVy x y s
  | other => exec other s

/-- `Step` under a configuration (40_step_cycle.md R80). -/
def stepWith (cfg : Config) (s : State) : Host.Outcome State Fault Refusal :=
  if s.running then
    match decodeWith cfg.strictSkipDecode s.fetch with
    | .ok i => execWith cfg i s.advance
    | .error _ => .next s.raiseUnknown
  else .next s

/-- Memory after Reset: all zero, then the glyph table at 0x050, then the ROM at 0x200 (70_reset_and_hazards.md R170). The bytes
from 0x0A0 on and below 0x050 that neither covers are the zeros unlisted memory reads as. -/
def Memory.load (font : Vector Byte fontLen) (rom : List Byte) : Memory :=
  (Memory.writeBytes [] fontBase font.toList).writeBytes progBase rom

/-- The state after a successful Reset (R170, 10_state.md R30). -/
def State.load (cfg : Config) (rom : List Byte) : State := { State.reset with mem := Memory.load cfg.font rom }

end Sys2Proof.Machine
end

