-- ==== Sys2Proof/Machine/HostOps.lean ====
section
/-! DEFINITION. The host's operations (60_exceptions.md R155). Each is atomic and they are totally ordered, so a run is a list of
them. `Step` here is `stepWith` with the result R86 gives it. -/

namespace Sys2Proof.Machine

/-- The result of `Step` (40_step_cycle.md R86). -/
inductive StepResult where
  /-- `Ok(touched)` -/
  | ok (touched : Bool)
  /-- `Fatal(kind, pc, opcode)` -/
  | fatal (record : FaultRecord)
  deriving DecidableEq, Repr

/-- The result of `Reset` (70_reset_and_hazards.md R170). -/
inductive ResetResult where
  | ok
  | fatal (record : FaultRecord)
  deriving DecidableEq, Repr

/-- The two instructions that write the frame buffer, whatever pixels they change (40_step_cycle.md R86). -/
def touchesFrame : Instr → Bool
  | .cls => true
  | .drw _ _ _ => true
  | .ret => false
  | .jp _ => false
  | .call _ => false
  | .seImm _ _ => false
  | .sneImm _ _ => false
  | .seReg _ _ => false
  | .ldImm _ _ => false
  | .addImm _ _ => false
  | .ldReg _ _ => false
  | .or _ _ => false
  | .and _ _ => false
  | .xor _ _ => false
  | .addReg _ _ => false
  | .sub _ _ => false
  | .shr _ _ => false
  | .subn _ _ => false
  | .shl _ _ => false
  | .sneReg _ _ => false
  | .ldI _ => false
  | .addI _ => false
  | .bcd _ => false
  | .stRegs _ => false
  | .ldRegs _ => false

/-- Whether the next step executes an instruction that writes the frame buffer. -/
def State.nextTouches (s : State) (cfg : Config) : Bool :=
  match decodeWith cfg.strictSkipDecode s.fetch with
  | .ok i => touchesFrame i
  | .error _ => false

/-- The result of a step from `s` to `t`: Fatal with the record when a fault is latched after it, else Ok (R80, R86). -/
def stepResult (cfg : Config) (s t : State) : StepResult :=
  if t.running then .ok (s.nextTouches cfg) else .fatal t.fault

/-- `Step` with its result (R80). -/
def stepOp (cfg : Config) (s : State) : Host.Outcome (State × StepResult) Fault Refusal :=
  match stepWith cfg s with
  | .next t => .next (t, stepResult cfg s t)
  | .fault r => .fault r
  | .refused r => .refused r

/-- One timer: one lower, floored at 0 (60_exceptions.md R152). -/
def timerDown (t : Byte) : Byte := if t.toNat > 0 then t - 1 else t

/-- `Tick`: the two timers and nothing else, in the fault state too (R152, R143). -/
def State.tick (s : State) : State := { s with dt := timerDown s.dt, st := timerDown s.st }

/-- `ConsumeRedraw`: the old REDRAW, and REDRAW cleared (R158). -/
def State.consumeRedraw (s : State) : State × Bool := ({ s with redraw := false }, s.redraw)

/-- `ReadFrameBuffer` at one pixel (R157). -/
def State.readPixel (s : State) (x y : Nat) : Bool := s.fb.pixel x y

/-- `ReadRedraw` (R158). -/
def State.readRedraw (s : State) : Bool := s.redraw

/-- `ReadSoundTimer` (R159). -/
def State.readSoundTimer (s : State) : Byte := s.st

/-- `ReadDelayTimer` (R159). -/
def State.readDelayTimer (s : State) : Byte := s.dt

/-- The derived output `tone = (ST ≠ 0)` (R159). -/
def State.tone (s : State) : Bool := s.st != 0

/-- `ReadFault` (R163). -/
def State.readFault (s : State) : FaultRecord := s.fault

/-- The record of a failed Reset: it has no offending instruction, so both context fields are 0 (R140, 90_conflicts.md C5). -/
def FaultRecord.romTooLarge : FaultRecord := ⟨.romTooLarge, 0, 0⟩

/-- `Reset(rom, len)`, `len` being the length of `rom` (70_reset_and_hazards.md R170). A ROM longer than 3584 bytes fails: FAULT is
latched and every other element is UNSPECIFIED (R172, 93_implementation_defined.md U2): `free` supplies those elements and nothing
constrains it, so a claim must hold for every `free` (notes/assumptions/6.md). -/
def resetOp (cfg : Config) (rom : List Byte) (free : State) : State × ResetResult :=
  if rom.length > maxRom then
    ({ free with fault := FaultRecord.romTooLarge }, .fatal FaultRecord.romTooLarge)
  else (State.load cfg rom, .ok)

/-- The operations by which the host changes the machine (R155). Reads change nothing and are functions of the state. -/
inductive HostOp where
  | reset (rom : List Byte)
  | step
  | tick
  | consumeRedraw
  deriving DecidableEq, Repr

/-- What an operation returns (R155). -/
inductive HostResult where
  | reset (r : ResetResult)
  | step (r : StepResult)
  | tick
  | consumeRedraw (old : Bool)
  deriving DecidableEq, Repr

/-- One host operation from `s`, its result and a state after it. Only a failed Reset leaves a choice: any state whose memory is
memory (R172). -/
def hostMove (cfg : Config) (s : State) : HostOp → HostResult → State → Prop
  | .reset rom, r, t => ∃ free : State, free.mem.wf ∧ r = .reset (resetOp cfg rom free).2 ∧ t = (resetOp cfg rom free).1
  | .step, r, t => ∃ u, stepOp cfg s = .next u ∧ r = .step u.2 ∧ t = u.1
  | .tick, r, t => r = .tick ∧ t = s.tick
  | .consumeRedraw, r, t => r = .consumeRedraw s.consumeRedraw.2 ∧ t = s.consumeRedraw.1

end Sys2Proof.Machine
end

