-- ==== Sys2Proof/Safety.lean ====
section
/-! DEFINITION. What claims are stated in: the invariant of the machine, what an operation may change (frames), and the states a
host can reach. -/

namespace Sys2Proof.Machine

/-- The fault latch tells the truth about how the machine stopped (10_state.md R25, 60_exceptions.md R140 to R146): with no fault
both context fields are 0, and so they are for a failed Reset; a fault of a step names the address PC - 2 and the word memory
holds there, which is illegal, or is a 2NNN met with a full stack, or is 00EE met with an empty one. -/
def State.faultTruthful (s : State) (strict : Bool) : Prop :=
  match s.fault.kind with
  | .none => s.fault.pc = 0 ∧ s.fault.opcode = 0
  | .romTooLarge => s.fault.pc = 0 ∧ s.fault.opcode = 0
  | .unknownOpcode =>
    s.pc = s.fault.pc + 2 ∧ s.wordAt s.fault.pc.toNat = s.fault.opcode ∧ wordLegal strict s.fault.opcode = false
  | .stackOverflow =>
    s.pc = s.fault.pc + 2 ∧ s.wordAt s.fault.pc.toNat = s.fault.opcode ∧ opClass s.fault.opcode = 0x2 ∧ s.sp = 16
  | .stackUnderflow =>
    s.pc = s.fault.pc + 2 ∧ s.wordAt s.fault.pc.toNat = s.fault.opcode ∧ s.fault.opcode = 0x00EE ∧ s.sp = 0

/-- The invariant of the machine: memory is in canonical form and the fault latch is truthful. -/
def State.Inv (s : State) (strict : Bool) : Prop := s.mem.wf ∧ s.faultTruthful strict

/-- What an operation may change. Everything not named is unchanged; DT and ST no instruction may change at all. -/
structure MayChange where
  /-- V registers that may change. -/
  regs : List Reg := []
  /-- Memory addresses, below 4096, that may change. -/
  bytes : List Nat := []
  idx : Bool := false
  pc : Bool := false
  stack : Bool := false
  frame : Bool := false
  fault : Bool := false

/-- `t` differs from `s` at most where `c` allows. Memory is compared byte by byte through the machine's own read. -/
def ChangesOnly (c : MayChange) (s t : State) : Prop :=
  (∀ r, r ∉ c.regs → t.readV r = s.readV r) ∧
  (∀ a, a < memSize → a ∉ c.bytes → t.readMem a = s.readMem a) ∧
  (c.idx = false → t.idx = s.idx) ∧
  (c.pc = false → t.pc = s.pc) ∧
  (c.stack = false → t.stack = s.stack ∧ t.sp = s.sp) ∧
  (c.frame = false → t.fb = s.fb ∧ t.redraw = s.redraw) ∧
  (c.fault = false → t.fault = s.fault) ∧
  t.dt = s.dt ∧ t.st = s.st

/-- The `n` addresses from `addr` on, each reduced modulo 4096 (20_memory.md R42, R55). -/
def addressRange (addr n : Nat) : List Nat := (List.range n).map fun k => (addr + k) % memSize

/-- The states a host reaches by operations from a successful Reset, with no failed Reset among them. -/
inductive Reachable (cfg : Config) : State → Prop where
  | load (rom : List Byte) (h : rom.length ≤ maxRom) : Reachable cfg (State.load cfg rom)
  | step (s t : State) (h : Reachable cfg s) (hs : stepWith cfg s = .next t) : Reachable cfg t
  | tick (s : State) (h : Reachable cfg s) : Reachable cfg s.tick
  | consume (s : State) (h : Reachable cfg s) : Reachable cfg s.consumeRedraw.1

/-- The sprite bit that lands on pixel (px, py) for a sprite of `n` rows at `addr` drawn from (x0, y0); false where none lands
(44_display.md R131 to R133): bit `7 - c` of row `r` lands in column `(x0 + c) mod 64` and row `(y0 + r) mod 32`. -/
def spriteBitAt (m : Memory) (addr n x0 y0 px py : Nat) : Bool :=
  (List.range n).any fun r => (List.range spriteWidth).any fun c =>
    (m.read (addr + r)).getLsbD (7 - c) && decide ((x0 + c) % fbWidth = px) && decide ((y0 + r) % fbHeight = py)

/-- PC after an instruction that does not fail, from the state before the step: the table of 10_state.md R16, `a` being PC. -/
def pcAfter (i : Instr) (s : State) : Word :=
  match i with
  | .jp nnn => nnn.setWidth 16
  | .call nnn => nnn.setWidth 16
  | .ret => s.stack[s.sp.val - 1]?.getD 0
  | .seImm x nn => if s.readV x = nn then s.pc + 4 else s.pc + 2
  | .sneImm x nn => if s.readV x ≠ nn then s.pc + 4 else s.pc + 2
  | .seReg x y => if s.readV x = s.readV y then s.pc + 4 else s.pc + 2
  | .sneReg x y => if s.readV x ≠ s.readV y then s.pc + 4 else s.pc + 2
  | .cls | .ldImm _ _ | .addImm _ _ | .ldReg _ _ | .or _ _ | .and _ _ | .xor _ _ | .addReg _ _ | .sub _ _ | .shr _ _ => s.pc + 2
  | .subn _ _ | .shl _ _ | .ldI _ | .drw _ _ _ | .addI _ | .bcd _ | .stRegs _ | .ldRegs _ => s.pc + 2

/-- V registers from 0 to `x`. -/
def regsUpTo (x : Reg) : List Reg := (List.finRange 16).filter (· ≤ x)

/-- The V registers an instruction reads: the table of 10_state.md R13. -/
def readRegs (usesVy : Bool) : Instr → List Reg
  | .cls | .ret | .jp _ | .call _ | .ldI _ => []
  | .seImm x _ | .sneImm x _ => [x]
  | .seReg x y | .sneReg x y => [x, y]
  | .ldImm _ _ => []
  | .addImm x _ => [x]
  | .ldReg _ y => [y]
  | .or x y | .and x y | .xor x y | .addReg x y | .sub x y | .subn x y => [x, y]
  | .shr x y | .shl x y => if usesVy then [y] else [x]
  | .drw x y _ => [x, y]
  | .addI x | .bcd x => [x]
  | .stRegs x => regsUpTo x
  | .ldRegs _ => []

/-- The V registers an instruction writes: the table of 10_state.md R13. -/
def writtenRegs : Instr → List Reg
  | .cls | .ret | .jp _ | .call _ | .ldI _ => []
  | .seImm _ _ | .sneImm _ _ | .seReg _ _ | .sneReg _ _ => []
  | .ldImm x _ | .addImm x _ | .ldReg x _ | .or x _ | .and x _ | .xor x _ => [x]
  | .addReg x _ | .sub x _ | .subn x _ | .shr x _ | .shl x _ => [x, flagReg]
  | .drw _ _ _ => [flagReg]
  | .addI _ | .bcd _ | .stRegs _ => []
  | .ldRegs x => regsUpTo x

/-- The instructions that write VF as a flag: the list of 10_state.md R12. -/
def writesFlag : Instr → Bool
  | .addReg _ _ | .sub _ _ | .shr _ _ | .subn _ _ | .shl _ _ | .drw _ _ _ => true
  | .cls | .ret | .jp _ | .call _ | .seImm _ _ | .sneImm _ _ | .seReg _ _ | .sneReg _ _ => false
  | .ldImm _ _ | .addImm _ _ | .ldReg _ _ | .or _ _ | .and _ _ | .xor _ _ => false
  | .ldI _ | .addI _ | .bcd _ | .stRegs _ | .ldRegs _ => false

/-- The memory addresses whose bytes an instruction reads as data: the table of 20_memory.md R55. -/
def dataReads (s : State) : Instr → List Nat
  | .ldRegs x => addressRange s.dataAddress (x.val + 1)
  | .drw _ _ n => addressRange s.dataAddress n.toNat
  | .cls | .ret | .jp _ | .call _ | .seImm _ _ | .sneImm _ _ | .seReg _ _ | .sneReg _ _ => []
  | .ldImm _ _ | .addImm _ _ | .ldReg _ _ | .or _ _ | .and _ _ | .xor _ _ | .addReg _ _ | .sub _ _ | .shr _ _ => []
  | .subn _ _ | .shl _ _ | .ldI _ | .addI _ | .bcd _ | .stRegs _ => []

/-- The memory addresses an instruction stores to: the table of 20_memory.md R55. -/
def dataWrites (s : State) : Instr → List Nat
  | .bcd _ => addressRange s.dataAddress 3
  | .stRegs x => addressRange s.dataAddress (x.val + 1)
  | .cls | .ret | .jp _ | .call _ | .seImm _ _ | .sneImm _ _ | .seReg _ _ | .sneReg _ _ => []
  | .ldImm _ _ | .addImm _ _ | .ldReg _ _ | .or _ _ | .and _ _ | .xor _ _ | .addReg _ _ | .sub _ _ | .shr _ _ => []
  | .subn _ _ | .shl _ _ | .ldI _ | .drw _ _ _ | .addI _ | .ldRegs _ => []

/-- Two states that differ at most in stack entries that are not live, those at SP and above (10_state.md R33). -/
def SameButStaleStack (s t : State) : Prop :=
  t = { s with stack := t.stack } ∧ ∀ k (h : k < stackDepth), k < s.sp.val → t.stack[k] = s.stack[k]

/-- Two states that differ at most in bits 15 to 12 of I (10_state.md R14). -/
def SameButHighIndex (s t : State) : Prop :=
  t = { s with idx := t.idx } ∧ t.idx.toNat % memSize = s.idx.toNat % memSize

end Sys2Proof.Machine
end

