-- ==== Sys2Proof/Certificates/Slice0/Obligations.lean ====
section
/-! DEFINITION. The statements for the provers. `exec` acts on the state whose PC is already advanced, so in a statement about
`exec` the instruction's own address is `s.pc - 2`; in a statement about a step it is `s.pc`. The words of an encoding are written
as numbers, `C·4096 + X·256 + Y·16 + N` (30_encoding.md R74). -/

open Sys2Proof Sys2Proof.Machine

/-! ## Control transfer (41_control_flow.md) -/

/-- R90: 00EE pops the newest entry into PC, all 16 bits; on an empty stack it raises StackUnderflow and changes nothing else. -/
def Obligations.ReturnPopsIntoProgramCounter : Prop :=
  (∀ strict, decodeWith strict 0x00EE = .ok .ret) ∧
  ∀ s : State,
    (0 < s.sp.val → ∃ t, exec .ret s = .next t ∧ t.sp.val + 1 = s.sp.val ∧ s.stack[s.sp.val - 1]? = some t.pc ∧
      t.stack = s.stack ∧ ChangesOnly { pc := true, stack := true } s t) ∧
    (s.sp.val = 0 → ∃ t, exec .ret s = .next t ∧ t.fault = ⟨.stackUnderflow, s.pc - 2, 0x00EE⟩ ∧
      ChangesOnly { fault := true } s t)

/-- R91: 1NNN loads the zero-extended address into PC and changes nothing else; a jump to itself makes the state a fixed point
of the step. -/
def Obligations.JumpLoadsProgramCounter : Prop :=
  ∀ (nnn : Addr) (s : State),
    (∀ strict, decodeWith strict (BitVec.ofNat 16 (0x1000 + nnn.toNat)) = .ok (.jp nnn)) ∧
    (∃ t, exec (.jp nnn) s = .next t ∧ t.pc.toNat = nnn.toNat ∧ ChangesOnly { pc := true } s t) ∧
    (s.fault.kind = .none → s.fetch = BitVec.ofNat 16 (0x1000 + nnn.toNat) → nnn.toNat = s.pc.toNat →
      ∀ cfg, stepWith cfg s = .next s)

/-- R92: 2NNN pushes the advanced PC and jumps; with 16 entries on the stack it raises StackOverflow and changes nothing else. -/
def Obligations.CallPushesAdvancedProgramCounter : Prop :=
  ∀ (nnn : Addr) (s : State),
    (∀ strict, decodeWith strict (BitVec.ofNat 16 (0x2000 + nnn.toNat)) = .ok (.call nnn)) ∧
    (s.sp.val < 16 → ∃ t, exec (.call nnn) s = .next t ∧ t.pc.toNat = nnn.toNat ∧ t.sp.val = s.sp.val + 1 ∧
      (∀ k : Nat, t.stack[k]? = if k = s.sp.val then some s.pc else s.stack[k]?) ∧
      ChangesOnly { pc := true, stack := true } s t) ∧
    (s.sp.val = 16 → ∃ t, exec (.call nnn) s = .next t ∧
      t.fault = ⟨.stackOverflow, s.pc - 2, BitVec.ofNat 16 (0x2000 + nnn.toNat)⟩ ∧ ChangesOnly { fault := true } s t)

/-- R93: 3XNN adds 2 to PC, modulo 65536, exactly when V[X] = NN, and changes nothing else. -/
def Obligations.SkipIfRegisterEqualsImmediate : Prop :=
  ∀ (x : Reg) (nn : Byte) (s : State),
    (∀ strict, decodeWith strict (BitVec.ofNat 16 (0x3000 + x.val * 256 + nn.toNat)) = .ok (.seImm x nn)) ∧
    ∃ t, exec (.seImm x nn) s = .next t ∧
      t.pc.toNat = (if (s.readV x).toNat = nn.toNat then (s.pc.toNat + 2) % 65536 else s.pc.toNat) ∧
      ChangesOnly { pc := true } s t

/-- R94: 4XNN adds 2 to PC exactly when V[X] ≠ NN, so exactly one of 3XNN and 4XNN skips. -/
def Obligations.SkipIfRegisterDiffersFromImmediate : Prop :=
  ∀ (x : Reg) (nn : Byte) (s : State),
    (∀ strict, decodeWith strict (BitVec.ofNat 16 (0x4000 + x.val * 256 + nn.toNat)) = .ok (.sneImm x nn)) ∧
    ∃ t, exec (.sneImm x nn) s = .next t ∧
      t.pc.toNat = (if (s.readV x).toNat ≠ nn.toNat then (s.pc.toNat + 2) % 65536 else s.pc.toNat) ∧
      ChangesOnly { pc := true } s t ∧
      ∃ u, exec (.seImm x nn) s = .next u ∧ (t.pc = s.pc + 2 ↔ ¬ u.pc = s.pc + 2)

/-- R95: 5XY0 adds 2 to PC exactly when V[X] = V[Y]; 5XYn with n not 0 is illegal, or the same instruction when
`STRICT_SKIP_DECODE` is false (the spec's decision D6). -/
def Obligations.SkipIfRegistersEqual : Prop :=
  ∀ (x y : Reg) (s : State),
    (∀ strict, decodeWith strict (BitVec.ofNat 16 (0x5000 + x.val * 256 + y.val * 16)) = .ok (.seReg x y)) ∧
    (∀ n : Nibble, n ≠ 0 →
      decodeWith false (BitVec.ofNat 16 (0x5000 + x.val * 256 + y.val * 16 + n.toNat)) = .ok (.seReg x y) ∧
      ∃ e, decodeWith true (BitVec.ofNat 16 (0x5000 + x.val * 256 + y.val * 16 + n.toNat)) = .error e) ∧
    ∃ t, exec (.seReg x y) s = .next t ∧
      t.pc.toNat = (if (s.readV x).toNat = (s.readV y).toNat then (s.pc.toNat + 2) % 65536 else s.pc.toNat) ∧
      ChangesOnly { pc := true } s t

/-- 9XY0 adds 2 to PC exactly when V[X] ≠ V[Y] (R96). That 9XYn with n not 0 follows `STRICT_SKIP_DECODE` as 5XYn does is the spec's
own analogy, its decision D6 (R68; notes/assumptions/1.md). -/
def Obligations.SkipIfRegistersDiffer : Prop :=
  ∀ (x y : Reg) (s : State),
    (∀ strict, decodeWith strict (BitVec.ofNat 16 (0x9000 + x.val * 256 + y.val * 16)) = .ok (.sneReg x y)) ∧
    (∀ n : Nibble, n ≠ 0 →
      decodeWith false (BitVec.ofNat 16 (0x9000 + x.val * 256 + y.val * 16 + n.toNat)) = .ok (.sneReg x y) ∧
      ∃ e, decodeWith true (BitVec.ofNat 16 (0x9000 + x.val * 256 + y.val * 16 + n.toNat)) = .error e) ∧
    ∃ t, exec (.sneReg x y) s = .next t ∧
      t.pc.toNat = (if (s.readV x).toNat ≠ (s.readV y).toNat then (s.pc.toNat + 2) % 65536 else s.pc.toNat) ∧
      ChangesOnly { pc := true } s t

/-! ## Register and ALU (42_register_alu.md) -/

/-- R101: 6XNN loads the immediate into V[X] and changes nothing else. -/
def Obligations.LoadImmediate : Prop :=
  ∀ (x : Reg) (nn : Byte) (s : State),
    (∀ strict, decodeWith strict (BitVec.ofNat 16 (0x6000 + x.val * 256 + nn.toNat)) = .ok (.ldImm x nn)) ∧
    ∃ t, exec (.ldImm x nn) s = .next t ∧ t.readV x = nn ∧ ChangesOnly { regs := [x] } s t

/-- R102: 7XNN adds modulo 256 and touches no flag. -/
def Obligations.AddImmediateWraps : Prop :=
  ∀ (x : Reg) (nn : Byte) (s : State),
    (∀ strict, decodeWith strict (BitVec.ofNat 16 (0x7000 + x.val * 256 + nn.toNat)) = .ok (.addImm x nn)) ∧
    ∃ t, exec (.addImm x nn) s = .next t ∧ (t.readV x).toNat = ((s.readV x).toNat + nn.toNat) % 256 ∧
      ChangesOnly { regs := [x] } s t

/-- R103: 8XY0 copies V[Y] to V[X] and changes nothing else. -/
def Obligations.CopyRegister : Prop :=
  ∀ (x y : Reg) (s : State),
    (∀ strict, decodeWith strict (BitVec.ofNat 16 (0x8000 + x.val * 256 + y.val * 16)) = .ok (.ldReg x y)) ∧
    ∃ t, exec (.ldReg x y) s = .next t ∧ t.readV x = s.readV y ∧ ChangesOnly { regs := [x] } s t

/-- R104, R105, R106: 8XY1, 8XY2 and 8XY3 are the bitwise operations, bit by bit, and write no flag. -/
def Obligations.BitwiseOperations : Prop :=
  ∀ (x y : Reg) (s : State),
    (∀ strict,
      decodeWith strict (BitVec.ofNat 16 (0x8001 + x.val * 256 + y.val * 16)) = .ok (.or x y) ∧
      decodeWith strict (BitVec.ofNat 16 (0x8002 + x.val * 256 + y.val * 16)) = .ok (.and x y) ∧
      decodeWith strict (BitVec.ofNat 16 (0x8003 + x.val * 256 + y.val * 16)) = .ok (.xor x y)) ∧
    (∃ t, exec (.or x y) s = .next t ∧ ChangesOnly { regs := [x] } s t ∧
      ∀ k, (t.readV x).getLsbD k = ((s.readV x).getLsbD k || (s.readV y).getLsbD k)) ∧
    (∃ t, exec (.and x y) s = .next t ∧ ChangesOnly { regs := [x] } s t ∧
      ∀ k, (t.readV x).getLsbD k = ((s.readV x).getLsbD k && (s.readV y).getLsbD k)) ∧
    (∃ t, exec (.xor x y) s = .next t ∧ ChangesOnly { regs := [x] } s t ∧
      ∀ k, (t.readV x).getLsbD k = ((s.readV x).getLsbD k ^^ (s.readV y).getLsbD k))

/-- R107: 8XY4 adds modulo 256 and sets VF to the carry, in VF last: with X = 15 the carry stays and the sum is lost. -/
def Obligations.AddWithCarryFlag : Prop :=
  ∀ (x y : Reg) (s : State),
    (∀ strict, decodeWith strict (BitVec.ofNat 16 (0x8004 + x.val * 256 + y.val * 16)) = .ok (.addReg x y)) ∧
    ∃ t, exec (.addReg x y) s = .next t ∧
      (x ≠ flagReg → (t.readV x).toNat = ((s.readV x).toNat + (s.readV y).toNat) % 256) ∧
      (t.readV flagReg).toNat = (if (s.readV x).toNat + (s.readV y).toNat > 255 then 1 else 0) ∧
      ChangesOnly { regs := [x, flagReg] } s t

/-- R108: 8XY5 subtracts V[Y] from V[X] modulo 256 and sets VF to no borrow, from the values before the instruction. -/
def Obligations.SubtractWithNoBorrowFlag : Prop :=
  ∀ (x y : Reg) (s : State),
    (∀ strict, decodeWith strict (BitVec.ofNat 16 (0x8005 + x.val * 256 + y.val * 16)) = .ok (.sub x y)) ∧
    ∃ t, exec (.sub x y) s = .next t ∧
      (x ≠ flagReg → ((t.readV x).toNat : Int) = (((s.readV x).toNat : Int) - (s.readV y).toNat) % 256) ∧
      (t.readV flagReg).toNat = (if (s.readV x).toNat ≥ (s.readV y).toNat then 1 else 0) ∧
      ChangesOnly { regs := [x, flagReg] } s t

/-- R110: 8XY7 subtracts V[X] from V[Y] modulo 256 into V[X] and sets VF to no borrow, from the values before. -/
def Obligations.ReverseSubtractWithNoBorrowFlag : Prop :=
  ∀ (x y : Reg) (s : State),
    (∀ strict, decodeWith strict (BitVec.ofNat 16 (0x8007 + x.val * 256 + y.val * 16)) = .ok (.subn x y)) ∧
    ∃ t, exec (.subn x y) s = .next t ∧
      (x ≠ flagReg → ((t.readV x).toNat : Int) = (((s.readV y).toNat : Int) - (s.readV x).toNat) % 256) ∧
      (t.readV flagReg).toNat = (if (s.readV y).toNat ≥ (s.readV x).toNat then 1 else 0) ∧
      ChangesOnly { regs := [x, flagReg] } s t

/-- The spec's decision D7 (R109): 8XY6 shifts V[Y] right by one into V[X] by default, V[X] in place when `SHIFT_USES_VY` is
false; VF is the bit shifted out. The order of the two writes is the spec's decision D5. -/
def Obligations.ShiftRightTakesItsOperandByParameter : Prop :=
  ∀ (x y : Reg) (s : State),
    (∀ strict, decodeWith strict (BitVec.ofNat 16 (0x8006 + x.val * 256 + y.val * 16)) = .ok (.shr x y)) ∧
    (∃ t, exec (.shr x y) s = .next t ∧ (x ≠ flagReg → (t.readV x).toNat = (s.readV y).toNat / 2) ∧
      (t.readV flagReg).toNat = (s.readV y).toNat % 2 ∧ ChangesOnly { regs := [x, flagReg] } s t) ∧
    ∀ cfg : Config, ∃ t, execWith cfg (.shr x y) s = .next t ∧
      (x ≠ flagReg → (t.readV x).toNat = (s.readV (if cfg.shiftUsesVy then y else x)).toNat / 2) ∧
      (t.readV flagReg).toNat = (s.readV (if cfg.shiftUsesVy then y else x)).toNat % 2 ∧
      ChangesOnly { regs := [x, flagReg] } s t

/-- The spec's decision D7 (R111): 8XYE shifts V[Y] left by one into V[X] by default, V[X] in place when `SHIFT_USES_VY` is
false; VF is the bit shifted out. The order of the two writes is the spec's decision D5. -/
def Obligations.ShiftLeftTakesItsOperandByParameter : Prop :=
  ∀ (x y : Reg) (s : State),
    (∀ strict, decodeWith strict (BitVec.ofNat 16 (0x800E + x.val * 256 + y.val * 16)) = .ok (.shl x y)) ∧
    (∃ t, exec (.shl x y) s = .next t ∧ (x ≠ flagReg → (t.readV x).toNat = (s.readV y).toNat * 2 % 256) ∧
      (t.readV flagReg).toNat = (s.readV y).toNat / 128 ∧ ChangesOnly { regs := [x, flagReg] } s t) ∧
    ∀ cfg : Config, ∃ t, execWith cfg (.shl x y) s = .next t ∧
      (x ≠ flagReg → (t.readV x).toNat = (s.readV (if cfg.shiftUsesVy then y else x)).toNat * 2 % 256) ∧
      (t.readV flagReg).toNat = (s.readV (if cfg.shiftUsesVy then y else x)).toNat / 128 ∧
      ChangesOnly { regs := [x, flagReg] } s t

/-! ## Index and memory (43_index_memory.md) -/

/-- R120: ANNN loads the zero-extended address into I and changes nothing else. -/
def Obligations.LoadIndexRegister : Prop :=
  ∀ (nnn : Addr) (s : State),
    (∀ strict, decodeWith strict (BitVec.ofNat 16 (0xA000 + nnn.toNat)) = .ok (.ldI nnn)) ∧
    ∃ t, exec (.ldI nnn) s = .next t ∧ t.idx.toNat = nnn.toNat ∧ ChangesOnly { idx := true } s t

/-- The spec's decisions D3 and D4 (R121): FX1E adds V[X] to I modulo 65536 and touches nothing else, VF included. -/
def Obligations.AddRegisterToIndex : Prop :=
  ∀ (x : Reg) (s : State),
    (∀ strict, decodeWith strict (BitVec.ofNat 16 (0xF01E + x.val * 256)) = .ok (.addI x)) ∧
    ∃ t, exec (.addI x) s = .next t ∧ t.idx.toNat = (s.idx.toNat + (s.readV x).toNat) % 65536 ∧
      ChangesOnly { idx := true } s t

/-- R122: FX33 stores the decimal digits of V[X] at I, I + 1, I + 2 and changes no other byte, no register, not I. -/
def Obligations.StoreDecimalDigits : Prop :=
  ∀ (x : Reg) (s : State),
    (∀ strict, decodeWith strict (BitVec.ofNat 16 (0xF033 + x.val * 256)) = .ok (.bcd x)) ∧
    s.dataAddress = s.idx.toNat ∧
    ∃ t, exec (.bcd x) s = .next t ∧
      (t.readMem s.dataAddress).toNat = (s.readV x).toNat / 100 ∧
      (t.readMem (s.dataAddress + 1)).toNat = (s.readV x).toNat / 10 % 10 ∧
      (t.readMem (s.dataAddress + 2)).toNat = (s.readV x).toNat % 10 ∧
      ChangesOnly { bytes := addressRange s.dataAddress 3 } s t

/-- R123: FX55 stores V0 to VX from I on, adds X + 1 to I modulo 65536, and changes no other byte and no register. -/
def Obligations.StoreRegisters : Prop :=
  ∀ (x : Reg) (s : State),
    (∀ strict, decodeWith strict (BitVec.ofNat 16 (0xF055 + x.val * 256)) = .ok (.stRegs x)) ∧
    s.dataAddress = s.idx.toNat ∧
    ∃ t, exec (.stRegs x) s = .next t ∧
      (∀ r : Reg, r.val ≤ x.val → t.readMem (s.dataAddress + r.val) = s.readV r) ∧
      t.idx.toNat = (s.idx.toNat + x.val + 1) % 65536 ∧
      ChangesOnly { bytes := addressRange s.dataAddress (x.val + 1), idx := true } s t

/-- R124: FX65 loads V0 to VX from I on, adds X + 1 to I modulo 65536, and changes no other register and no memory. -/
def Obligations.LoadRegisters : Prop :=
  ∀ (x : Reg) (s : State),
    (∀ strict, decodeWith strict (BitVec.ofNat 16 (0xF065 + x.val * 256)) = .ok (.ldRegs x)) ∧
    s.dataAddress = s.idx.toNat ∧
    ∃ t, exec (.ldRegs x) s = .next t ∧
      (∀ r : Reg, r.val ≤ x.val → t.readV r = s.readMem (s.dataAddress + r.val)) ∧
      t.idx.toNat = (s.idx.toNat + x.val + 1) % 65536 ∧
      ChangesOnly { regs := regsUpTo x, idx := true } s t

/-! ## Display (44_display.md) -/

/-- R130: 00E0 makes every pixel 0 and sets REDRAW, whatever the pixels were, and changes nothing else. -/
def Obligations.ClearDisplay : Prop :=
  (∀ strict, decodeWith strict 0x00E0 = .ok .cls) ∧ touchesFrame .cls = true ∧
  ∀ s : State, ∃ t, exec .cls s = .next t ∧ (∀ px py, t.fb.pixel px py = false) ∧ t.redraw = true ∧
    ChangesOnly { frame := true } s t

/-- R131: DXYN XORs the sprite onto the frame buffer with wrap per pixel, sets VF to the collision over the whole sprite and sets
REDRAW. -/
def Obligations.DrawSprite : Prop :=
  ∀ (x y : Reg) (n : Nibble) (s : State),
    (∀ strict, decodeWith strict (BitVec.ofNat 16 (0xD000 + x.val * 256 + y.val * 16 + n.toNat)) = .ok (.drw x y n)) ∧
    touchesFrame (.drw x y n) = true ∧ s.dataAddress = s.idx.toNat ∧
    ∃ t, exec (.drw x y n) s = .next t ∧
      (∀ px py, px < fbWidth → py < fbHeight → t.fb.pixel px py =
        (s.fb.pixel px py ^^ spriteBitAt s.mem s.dataAddress n.toNat (s.readV x).toNat (s.readV y).toNat px py)) ∧
      (t.readV flagReg = 0 ∨ t.readV flagReg = 1) ∧
      (t.readV flagReg = 1 ↔ ∃ px py, px < fbWidth ∧ py < fbHeight ∧ s.fb.pixel px py = true ∧
        spriteBitAt s.mem s.dataAddress n.toNat (s.readV x).toNat (s.readV y).toNat px py = true) ∧
      t.redraw = true ∧ ChangesOnly { regs := [flagReg], frame := true } s t

/-- Derived (R133): a sprite drawn twice with unchanged operands restores the frame buffer, and the second draw reports a
collision when the first turned a pixel on. X and Y are not 15, since the first draw writes VF. -/
def Obligations.DrawingTwiceRestoresTheFrame : Prop :=
  ∀ (x y : Reg) (n : Nibble) (s t u : State), x ≠ flagReg → y ≠ flagReg →
    exec (.drw x y n) s = .next t → exec (.drw x y n) t = .next u →
    u.fb = s.fb ∧ ((∃ px py, s.fb.pixel px py = false ∧ t.fb.pixel px py = true) → u.readV flagReg = 1)

/-! ## Encoding (30_encoding.md) -/

/-- Words written out from the patterns of R63 decode to the instructions they stand for, one or more of each family. -/
def Obligations.SampleWordsDecode : Prop :=
  decode 0x00E0 = .ok .cls ∧ decode 0x00EE = .ok .ret ∧ decode 0x2F0E = .ok (.call 0xF0E) ∧
  decode 0x3C42 = .ok (.seImm 0xC 0x42) ∧ decode 0x5120 = .ok (.seReg 1 2) ∧ decode 0x6A05 = .ok (.ldImm 0xA 0x05) ∧
  decode 0x8AB4 = .ok (.addReg 0xA 0xB) ∧ decode 0x810E = .ok (.shl 1 0) ∧ decode 0xA300 = .ok (.ldI 0x300) ∧
  decode 0xD5A7 = .ok (.drw 5 0xA 7) ∧ decode 0xF265 = .ok (.ldRegs 2) ∧ decode 0xF033 = .ok (.bcd 0)

/-- Headline: the decoder reads back every instruction from its encoding, whole, at either value of `STRICT_SKIP_DECODE`, as a
word and as two bytes in memory order with any bytes after them. -/
def Obligations.DecodingAnEncodedInstructionGivesItBack : Prop :=
  ∀ (strict : Bool) (i : Instr), decodeWith strict (encode i) = .ok i ∧
    ∀ rest, decodeBytes strict (encodeBytes i ++ rest) = .ok (i, rest)

/-- With `STRICT_SKIP_DECODE` every legal word is the encoding of the instruction it decodes to: no bit of a word is ignored. -/
def Obligations.EveryDecodedWordIsAnEncoding : Prop :=
  ∀ (op : Word) (i : Instr), decodeWith true op = .ok i → encode i = op

/-- R63: the rows of the opcode map are pairwise disjoint, so at most one selects a word, and the decoder gives an instruction
of exactly the row that does; with `STRICT_SKIP_DECODE` false the rows 5XY0 and 9XY0 have mask 0xF000. -/
def Obligations.DecoderFollowsTheOpcodeMap : Prop :=
  ∀ (strict : Bool) (op : Word),
    ((opcodeTable strict).filter (·.selects op)).length ≤ 1 ∧
    (∀ i, decodeWith strict op = .ok i → ∃ row ∈ opcodeTable strict, row.selects op = true ∧ row.id = i.row) ∧
    ((∃ i, decodeWith strict op = .ok i) ↔ wordLegal strict op = true)

/-- Classes 1 to 4, 6, 7, A and D are always legal; B, C and E never; class 8 by its low nibble; class F by its low byte; class 0 is
two words, and classes 5 and 9 follow `STRICT_SKIP_DECODE` (both the spec's decision D6: R65, R68). -/
def Obligations.LegalityByClass : Prop :=
  ∀ (strict : Bool) (op : Word),
    (op.toNat / 4096 ∈ [1, 2, 3, 4, 6, 7, 0xA, 0xD] → ∃ i, decodeWith strict op = .ok i) ∧
    (op.toNat / 4096 ∈ [0xB, 0xC, 0xE] → ∃ e, decodeWith strict op = .error e) ∧
    (op.toNat / 4096 = 0 → ((∃ i, decodeWith strict op = .ok i) ↔ op = 0x00E0 ∨ op = 0x00EE)) ∧
    (op.toNat / 4096 = 8 → ((∃ i, decodeWith strict op = .ok i) ↔ op.toNat % 16 ≤ 7 ∨ op.toNat % 16 = 0xE)) ∧
    (op.toNat / 4096 = 0xF → ((∃ i, decodeWith strict op = .ok i) ↔ op.toNat % 256 ∈ [0x1E, 0x33, 0x55, 0x65])) ∧
    (op.toNat / 4096 ∈ [5, 9] → ((∃ i, decodeWith strict op = .ok i) ↔ strict = false ∨ op.toNat % 16 = 0))

/-- The spec's decision D14 (R74): the assembler line of an instruction is well formed and assembles to its two bytes; a line
assembles exactly when it is well formed. -/
def Obligations.AssemblerFormRoundTrips : Prop :=
  (∀ i : Instr, i.toAsm.wellFormed = true ∧ i.toAsm.shape = some i ∧ i.toAsm.assemble = some (encodeBytes i)) ∧
  ∀ line : AsmLine, line.assemble.isSome = line.wellFormed

/-! ## The step (40_step_cycle.md) -/

/-- When the word at PC decodes to an instruction and no fault is latched, the step is that instruction's meaning on the state with
PC two higher; and `step` is `stepWith` at the default configuration. -/
def Obligations.StepRunsTheDecodedInstruction : Prop :=
  ∀ s : State,
    (∀ i, s.fault.kind = .none → decode s.fetch = .ok i → step s = exec i s.advance) ∧
    s.advance = { s with pc := s.pc + 2 } ∧ step s = stepWith Config.default s

/-- R80: the whole cycle with its results, at every configuration. -/
def Obligations.StepFollowsTheCycle : Prop :=
  ∀ (cfg : Config) (s : State) (op : Word),
    op.toNat = (s.readMem s.pc.toNat).toNat * 256 + (s.readMem (s.pc.toNat + 1)).toNat →
    (s.fault.kind ≠ .none → stepOp cfg s = .next (s, .fatal s.fault)) ∧
    (s.fault.kind = .none → ∀ i, decodeWith cfg.strictSkipDecode op = .ok i →
      ∃ t, execWith cfg i { s with pc := s.pc + 2 } = .next t ∧
        (t.fault.kind = .none → stepOp cfg s = .next (t, .ok (touchesFrame i))) ∧
        (t.fault.kind ≠ .none → stepOp cfg s = .next (t, .fatal t.fault))) ∧
    (s.fault.kind = .none → ∀ e, decodeWith cfg.strictSkipDecode op = .error e →
      stepOp cfg s = .next ({ s with pc := s.pc + 2, fault := ⟨.unknownOpcode, s.pc, op⟩ },
        .fatal ⟨.unknownOpcode, s.pc, op⟩))

/-- R81: the fetched word, from the two bytes at PC and PC + 1, each address modulo 4096, for every PC, odd ones too. -/
def Obligations.FetchIsBigEndianAndWraps : Prop :=
  ∀ s : State, s.fetch.toNat =
    (s.mem.get (s.pc.toNat % 4096)).toNat * 256 + (s.mem.get ((s.pc.toNat + 1) % 4096)).toNat

/-- R87: a step at any configuration and from any state has exactly one successor and one result; no step stops the model. -/
def Obligations.StepIsTotalAndDeterministic : Prop :=
  ∀ (cfg : Config) (s : State), (∃! u : State × StepResult, stepOp cfg s = .next u) ∧ ∃ t, step s = .next t

/-- Derived (R16; the last row rests on the spec's decision D9): PC after every step of a running machine. -/
def Obligations.ProgramCounterAfterEveryInstruction : Prop :=
  ∀ (cfg : Config) (s t : State) (i : Instr), s.fault.kind = .none →
    decodeWith cfg.strictSkipDecode s.fetch = .ok i → stepWith cfg s = .next t →
    t.pc = if t.fault.kind = .none then pcAfter i s else s.pc + 2

/-- A fetched illegal word raises UnknownOpcode and changes PC and FAULT only (R67). That PC is two higher and that the record holds the
fetch address and the word is the spec's decision D9 (notes/assumptions/3.md). -/
def Obligations.IllegalWordRaisesUnknownOpcode : Prop :=
  ∀ (cfg : Config) (s : State), s.fault.kind = .none → wordLegal cfg.strictSkipDecode s.fetch = false →
    ∃ t, stepWith cfg s = .next t ∧ t.fault = ⟨.unknownOpcode, s.pc, s.fetch⟩ ∧ t.pc = s.pc + 2 ∧
      ChangesOnly { pc := true, fault := true } s t

/-- The spec's decision D9 (R85): a step that latches a fault changes nothing but PC, two higher, and the latch, which names the
fetch address and the fetched word. -/
def Obligations.FaultsArePrecise : Prop :=
  ∀ (cfg : Config) (s t : State), s.fault.kind = .none → stepWith cfg s = .next t → t.fault.kind ≠ .none →
    ∃ k, (k = .unknownOpcode ∨ k = .stackOverflow ∨ k = .stackUnderflow) ∧
      t = { s with pc := s.pc + 2, fault := ⟨k, s.pc, s.fetch⟩ }

/-- The spec's decision D8 (R143): with a fault latched Step is the identity and returns the record, and Tick and ConsumeRedraw
still act. -/
def Obligations.FaultStateIsSticky : Prop :=
  ∀ (cfg : Config) (s : State), s.fault.kind ≠ .none →
    step s = .next s ∧ stepOp cfg s = .next (s, .fatal s.fault) ∧
    (s.tick.fault = s.fault ∧ s.tick.dt = timerDown s.dt ∧ s.tick.st = timerDown s.st) ∧
    s.consumeRedraw = ({ s with redraw := false }, s.redraw)

/-- The two stack errors of a step: 2NNN with SP = 16, 00EE with SP = 0 (R145, R146). That PC is two higher and that the record holds
the fetch address and the word is the spec's decision D9 (notes/assumptions/3.md and 4.md). -/
def Obligations.StackErrorsOfAStep : Prop :=
  ∀ (cfg : Config) (s : State), s.fault.kind = .none →
    (∀ nnn, decodeWith cfg.strictSkipDecode s.fetch = .ok (.call nnn) → s.sp.val = 16 →
      stepWith cfg s = .next { s with pc := s.pc + 2, fault := ⟨.stackOverflow, s.pc, s.fetch⟩ }) ∧
    (decodeWith cfg.strictSkipDecode s.fetch = .ok .ret → s.sp.val = 0 →
      stepWith cfg s = .next { s with pc := s.pc + 2, fault := ⟨.stackUnderflow, s.pc, 0x00EE⟩ })

/-- R148: the only operation that leaves the fault state is a Reset that succeeds, which discards the whole state; one that fails
leaves RomTooLarge latched. -/
def Obligations.OnlyResetLeavesTheFaultState : Prop :=
  ∀ (cfg : Config) (s t : State) (op : HostOp) (r : HostResult), s.fault.kind ≠ .none → hostMove cfg s op r t →
    (t.fault.kind = .none → ∃ rom, op = .reset rom ∧ rom.length ≤ 3584) ∧
    (∀ rom, op = .reset rom → rom.length ≤ 3584 → t = State.load cfg rom ∧ t.fault.kind = .none) ∧
    (∀ rom, op = .reset rom → 3584 < rom.length → t.fault.kind = .romTooLarge)

/-- Derived (95_test_vectors.md S5): 2NNN, then 00EE at its target, restores PC to the instruction after the 2NNN and SP and every
live stack entry to what they were. -/
def Obligations.CallThenReturnComesBack : Prop :=
  ∀ (s : State) (nnn : Addr), s.fault.kind = .none → decode s.fetch = .ok (.call nnn) → s.sp.val < 16 →
    s.wordAt nnn.toNat = 0x00EE →
    ∃ t u, step s = .next t ∧ t.sp.val = s.sp.val + 1 ∧ step t = .next u ∧ u.pc = s.pc + 2 ∧ u.sp = s.sp ∧
      (∀ k : Nat, k < s.sp.val → u.stack[k]? = s.stack[k]?) ∧ ChangesOnly { pc := true, stack := true } s u

/-! ## What instructions touch (10_state.md, 20_memory.md) -/

/-- R13: each instruction writes only the V registers the table lists, and its effect depends only on the V registers the table
lists. -/
def Obligations.RegisterReadWriteTable : Prop :=
  ∀ (cfg : Config) (i : Instr) (s t : State), execWith cfg i s = .next t →
    (∀ r, r ∉ writtenRegs i → t.readV r = s.readV r) ∧
    ∀ s' : State, s' = { s with v := s'.v } → (∀ r ∈ readRegs cfg.shiftUsesVy i, s'.readV r = s.readV r) →
      ∃ t', execWith cfg i s' = .next t' ∧ t' = { t with v := t'.v } ∧ ∀ r ∈ writtenRegs i, t'.readV r = t.readV r

/-- R12: the instructions that write VF as a flag leave 0 or 1 in it, on every execution; every other instruction changes VF only where
it names VF as its destination. -/
def Obligations.FlagWritersLeaveZeroOrOne : Prop :=
  ∀ (cfg : Config) (i : Instr) (s : State), ∃ t, execWith cfg i s = .next t ∧
    (writesFlag i = true → t.readV flagReg = 0 ∨ t.readV flagReg = 1) ∧
    (writesFlag i = false → t.readV flagReg ≠ s.readV flagReg →
      (∃ nn, i = .ldImm flagReg nn ∨ i = .addImm flagReg nn) ∨
      (∃ y, i = .ldReg flagReg y ∨ i = .or flagReg y ∨ i = .and flagReg y ∨ i = .xor flagReg y) ∨ i = .ldRegs flagReg)

/-- R55: each instruction stores only to the addresses the table lists, and its effect depends only on the memory bytes the table
lists; the fetch depends only on the bytes at PC and PC + 1. -/
def Obligations.MemoryAccessTable : Prop :=
  (∀ s s' : State, s' = { s with mem := s'.mem } → s'.readMem s.pc.toNat = s.readMem s.pc.toNat →
    s'.readMem (s.pc.toNat + 1) = s.readMem (s.pc.toNat + 1) → s'.fetch = s.fetch) ∧
  ∀ (cfg : Config) (i : Instr) (s t : State), execWith cfg i s = .next t →
    (∀ a, a < memSize → a ∉ dataWrites s i → t.readMem a = s.readMem a) ∧
    ∀ s' : State, s' = { s with mem := s'.mem } → (∀ a ∈ dataReads s i, s'.readMem a = s.readMem a) →
      ∃ t', execWith cfg i s' = .next t' ∧ t' = { t with mem := t'.mem } ∧ ∀ a ∈ dataWrites s i, t'.readMem a = t.readMem a

/-- The spec's decision D15 (R24, R86): REDRAW after a step is REDRAW before or the step's touched result; ConsumeRedraw returns it
and clears it. -/
def Obligations.RedrawIsStickyUntilConsumed : Prop :=
  (∀ (cfg : Config) (s t : State) (r : StepResult), stepOp cfg s = .next (t, r) →
    t.redraw = (s.redraw || decide (r = .ok true))) ∧
  ∀ s : State, s.consumeRedraw.2 = s.redraw ∧ s.consumeRedraw.1.redraw = false ∧
    ChangesOnly { frame := true } s s.consumeRedraw.1 ∧ s.consumeRedraw.1.fb = s.fb

/-- Derived (R14, R19, R22, R23): I, the stack, the frame buffer and the timers are changed by no instruction but those the spec
names. -/
def Obligations.WhoChangesIndexStackFrameAndTimers : Prop :=
  ∀ (cfg : Config) (i : Instr) (s t : State), execWith cfg i s = .next t →
    (t.idx ≠ s.idx → (∃ n, i = .ldI n) ∨ ∃ x, i = .addI x ∨ i = .stRegs x ∨ i = .ldRegs x) ∧
    (t.stack ≠ s.stack ∨ t.sp ≠ s.sp → i = .ret ∨ ∃ n, i = .call n) ∧
    (t.fb ≠ s.fb → touchesFrame i = true) ∧ t.dt = s.dt ∧ t.st = s.st

/-- R53: the step of FX55 or FX33 completes, over its own bytes too, and whatever two consecutive bytes it stored are what a fetch
at their address reads, the very next fetch among them. -/
def Obligations.StoresAreSeenByTheNextFetch : Prop :=
  ∀ (s : State) (x : Reg), s.fault.kind = .none →
    (decode s.fetch = .ok (.stRegs x) → ∃ t, step s = .next t ∧ t.fault.kind = .none ∧ t.fetch = t.wordAt t.pc.toNat ∧
      ∀ (a : Nat) (r q : Reg), r.val + 1 = q.val → q.val ≤ x.val → a % 4096 = (s.dataAddress + r.val) % 4096 →
        (t.wordAt a).toNat = (s.readV r).toNat * 256 + (s.readV q).toNat) ∧
    (decode s.fetch = .ok (.bcd x) → ∃ t, step s = .next t ∧ t.fault.kind = .none ∧ t.fetch = t.wordAt t.pc.toNat ∧
      ∀ a : Nat,
        (a % 4096 = s.dataAddress % 4096 →
          (t.wordAt a).toNat = (s.readV x).toNat / 100 * 256 + (s.readV x).toNat / 10 % 10) ∧
        (a % 4096 = (s.dataAddress + 1) % 4096 →
          (t.wordAt a).toNat = (s.readV x).toNat / 10 % 10 * 256 + (s.readV x).toNat % 10))

/-- The spec's decision D3 (R42), with R50: after bytes are stored at consecutive addresses, each reduced modulo 4096, an address
reads as the byte whose place it is and, outside them, as before: for every start address, across the top of memory too. -/
def Obligations.StoredBytesReadBackAroundMemory : Prop :=
  ∀ (s : State) (addr a : Nat) (bytes : List Byte), bytes.length ≤ 4096 →
    (s.storeBytes addr bytes).readMem a = (bytes[(a + 4096 - addr % 4096) % 4096]?).getD (s.readMem a)

/-- R20, R21: Push on a full stack and Pop on an empty one give nothing, and the instruction raises with no state changed but the
latch (its record as R90 and R92 give it); otherwise Push writes the entry at SP and raises SP, and Pop gives the newest entry back and lowers SP. -/
def Obligations.PushAndPopAreLastInFirstOut : Prop :=
  ∀ (s : State) (w : Word),
    (s.push w = none ↔ s.sp.val = 16) ∧ (s.pop = none ↔ s.sp.val = 0) ∧
    (s.push s.pc = none → ∀ nnn, exec (.call nnn) s =
      .next { s with fault := ⟨.stackOverflow, s.pc - 2, encode (.call nnn)⟩ }) ∧
    (s.pop = none → exec .ret s = .next { s with fault := ⟨.stackUnderflow, s.pc - 2, 0x00EE⟩ }) ∧
    (∀ t, s.push w = some t → t.sp.val = s.sp.val + 1 ∧ t.stack[s.sp.val]? = some w ∧
      (∀ k : Nat, k ≠ s.sp.val → t.stack[k]? = s.stack[k]?) ∧ ChangesOnly { stack := true } s t ∧
      ∃ u, t.pop = some (w, u) ∧ u.sp = s.sp) ∧
    ∀ v u, s.pop = some (v, u) → u.sp.val + 1 = s.sp.val ∧ s.stack[u.sp.val]? = some v ∧ u.stack = s.stack ∧
      ChangesOnly { stack := true } s u

/-- The spec's decision D13 (R33): stack entries at SP and above are not observable: two states that differ only in them step to
states that differ only in them, with the same result. -/
def Obligations.StaleStackEntriesAreUnobservable : Prop :=
  ∀ (cfg : Config) (s s' t : State) (r : StepResult), SameButStaleStack s s' → stepOp cfg s = .next (t, r) →
    ∃ t', stepOp cfg s' = .next (t', r) ∧ SameButStaleStack t t'

/-- The spec's decisions D3 and D4 (R14): bits 15 to 12 of I are not observable: two states that differ only in them step to states
that differ only in them, with the same result. -/
def Obligations.HighIndexBitsAreUnobservable : Prop :=
  ∀ (cfg : Config) (s s' t : State) (r : StepResult), SameButHighIndex s s' → stepOp cfg s = .next (t, r) →
    ∃ t', stepOp cfg s' = .next (t', r) ∧ SameButHighIndex t t'

/-! ## Timers and the host (60_exceptions.md) -/

/-- R152: Tick lowers each timer by one, floored at 0, each on its own, and changes nothing else. -/
def Obligations.TickLowersEachTimerToZero : Prop :=
  ∀ s : State, s.tick = { s with dt := s.tick.dt, st := s.tick.st } ∧
    s.tick.dt.toNat = s.dt.toNat - 1 ∧ s.tick.st.toNat = s.st.toNat - 1

/-- Derived (R156): Tick and Step commute, results included. -/
def Obligations.TickAndStepCommute : Prop :=
  ∀ (cfg : Config) (s t : State) (r : StepResult), stepOp cfg s = .next (t, r) → stepOp cfg s.tick = .next (t.tick, r)

/-- Derived (R153, the spec's decision D12): from a successful Reset, whatever steps, ticks and redraw reads follow, both timers are
0 and the tone is off. -/
def Obligations.TimersStayZeroFromReset : Prop :=
  ∀ (cfg : Config) (s : State), Reachable cfg s → s.readDelayTimer = 0 ∧ s.readSoundTimer = 0 ∧ s.tone = false

/-! ## Reset (70_reset_and_hazards.md) and the invariant -/

/-- R30: after a successful Reset every element has its value, for every ROM of at most 3584 bytes and every FONT. -/
def Obligations.ResetValues : Prop :=
  ∀ (cfg : Config) (rom : List Byte) (free : State), rom.length ≤ 3584 →
    ∃ s, resetOp cfg rom free = (s, .ok) ∧
      (∀ a, a < 0x050 → s.readMem a = 0) ∧
      (∀ k (h : k < 80), s.readMem (0x050 + k) = cfg.font[k]) ∧
      (∀ a, 0x0A0 ≤ a → a < 0x200 → s.readMem a = 0) ∧
      (∀ k (h : k < rom.length), s.readMem (0x200 + k) = rom[k]) ∧
      (∀ a, 0x200 + rom.length ≤ a → a ≤ 0xFFF → s.readMem a = 0) ∧
      (∀ r, s.readV r = 0) ∧ s.idx = 0 ∧ s.pc = 0x0200 ∧ (∀ k : Nat, k < 16 → s.stack[k]? = some 0) ∧ s.sp.val = 0 ∧
      s.dt = 0 ∧ s.st = 0 ∧ (∀ px py, s.fb.pixel px py = false) ∧ s.redraw = false ∧ s.fault = ⟨.none, 0, 0⟩

/-- The size boundary (R147, R177): 3584 bytes succeed and fill memory to 0xFFF; one byte more fails with RomTooLarge, the check is on
the length alone, and no step raises this error. That the record latched and returned is (RomTooLarge, 0, 0) is the spec's decision
D11 with its conflict C5 (notes/assumptions/3.md and 6.md). -/
def Obligations.RomSizeBoundary : Prop :=
  ∀ (cfg : Config) (rom : List Byte) (free : State),
    (3584 < rom.length → (resetOp cfg rom free).2 = .fatal ⟨.romTooLarge, 0, 0⟩ ∧
      (resetOp cfg rom free).1.fault = ⟨.romTooLarge, 0, 0⟩) ∧
    (∀ h : rom.length = 3584, (resetOp cfg rom free).2 = .ok ∧ (resetOp cfg rom free).1.fault.kind = .none ∧
      ∀ k (hk : k < 3584), (resetOp cfg rom free).1.readMem (0x200 + k) = rom[k]) ∧
    (∀ s t, s.fault.kind = .none → stepWith cfg s = .next t → t.fault.kind ≠ .romTooLarge)

/-- R173: the first instruction after Reset is the one at 0x0200, the word of the ROM's first two bytes, missing bytes being 0. -/
def Obligations.EntryPointIsTheRomsFirstWord : Prop :=
  ∀ (cfg : Config) (rom : List Byte) (free : State), rom.length ≤ 3584 →
    (resetOp cfg rom free).1.pc = 0x0200 ∧
    (resetOp cfg rom free).1.fetch.toNat = ((rom[0]?).getD 0).toNat * 256 + ((rom[1]?).getD 0).toNat

/-- Headline: every step, from every state, keeps the invariant: memory in canonical form, and a fault latch that tells the
truth. -/
def Obligations.EveryStepKeepsTheInvariant : Prop :=
  ∀ s t : State, s.Inv Config.default.strictSkipDecode → step s = .next t → t.Inv Config.default.strictSkipDecode

/-- Every operation of the host, at every configuration, keeps the invariant. -/
def Obligations.EveryHostOperationKeepsTheInvariant : Prop :=
  ∀ (cfg : Config) (s t : State) (op : HostOp) (r : HostResult),
    s.Inv cfg.strictSkipDecode → hostMove cfg s op r t → t.Inv cfg.strictSkipDecode

/-- The reset state meets the invariant. -/
def Obligations.ResetMeetsTheInvariant : Prop := State.reset.Inv Config.default.strictSkipDecode
end

