-- ==== Sys2Proof/Laws/State.lean ====
section
/-! SUPPORT. One lemma per field of State per update, so that no later proof unfolds a record update. -/

namespace Sys2Proof.Machine

variable (s : State)

@[simp] theorem State.writeV_mem (r : Reg) (b : Byte) : (s.writeV r b).mem = s.mem := rfl
@[simp] theorem State.writeV_v (r : Reg) (b : Byte) : (s.writeV r b).v = s.v.set r.val b := rfl
@[simp] theorem State.writeV_idx (r : Reg) (b : Byte) : (s.writeV r b).idx = s.idx := rfl
@[simp] theorem State.writeV_pc (r : Reg) (b : Byte) : (s.writeV r b).pc = s.pc := rfl
@[simp] theorem State.writeV_stack (r : Reg) (b : Byte) : (s.writeV r b).stack = s.stack := rfl
@[simp] theorem State.writeV_sp (r : Reg) (b : Byte) : (s.writeV r b).sp = s.sp := rfl
@[simp] theorem State.writeV_dt (r : Reg) (b : Byte) : (s.writeV r b).dt = s.dt := rfl
@[simp] theorem State.writeV_st (r : Reg) (b : Byte) : (s.writeV r b).st = s.st := rfl
@[simp] theorem State.writeV_fb (r : Reg) (b : Byte) : (s.writeV r b).fb = s.fb := rfl
@[simp] theorem State.writeV_redraw (r : Reg) (b : Byte) : (s.writeV r b).redraw = s.redraw := rfl
@[simp] theorem State.writeV_fault (r : Reg) (b : Byte) : (s.writeV r b).fault = s.fault := rfl

@[simp] theorem State.storeBytes_mem (addr : Nat) (bytes : List Byte) : (s.storeBytes addr bytes).mem = s.mem.writeBytes addr bytes := rfl
@[simp] theorem State.storeBytes_v (addr : Nat) (bytes : List Byte) : (s.storeBytes addr bytes).v = s.v := rfl
@[simp] theorem State.storeBytes_idx (addr : Nat) (bytes : List Byte) : (s.storeBytes addr bytes).idx = s.idx := rfl
@[simp] theorem State.storeBytes_pc (addr : Nat) (bytes : List Byte) : (s.storeBytes addr bytes).pc = s.pc := rfl
@[simp] theorem State.storeBytes_stack (addr : Nat) (bytes : List Byte) : (s.storeBytes addr bytes).stack = s.stack := rfl
@[simp] theorem State.storeBytes_sp (addr : Nat) (bytes : List Byte) : (s.storeBytes addr bytes).sp = s.sp := rfl
@[simp] theorem State.storeBytes_dt (addr : Nat) (bytes : List Byte) : (s.storeBytes addr bytes).dt = s.dt := rfl
@[simp] theorem State.storeBytes_st (addr : Nat) (bytes : List Byte) : (s.storeBytes addr bytes).st = s.st := rfl
@[simp] theorem State.storeBytes_fb (addr : Nat) (bytes : List Byte) : (s.storeBytes addr bytes).fb = s.fb := rfl
@[simp] theorem State.storeBytes_redraw (addr : Nat) (bytes : List Byte) : (s.storeBytes addr bytes).redraw = s.redraw := rfl
@[simp] theorem State.storeBytes_fault (addr : Nat) (bytes : List Byte) : (s.storeBytes addr bytes).fault = s.fault := rfl

@[simp] theorem State.setIdx_mem (w : Word) : (s.setIdx w).mem = s.mem := rfl
@[simp] theorem State.setIdx_v (w : Word) : (s.setIdx w).v = s.v := rfl
@[simp] theorem State.setIdx_idx (w : Word) : (s.setIdx w).idx = w := rfl
@[simp] theorem State.setIdx_pc (w : Word) : (s.setIdx w).pc = s.pc := rfl
@[simp] theorem State.setIdx_stack (w : Word) : (s.setIdx w).stack = s.stack := rfl
@[simp] theorem State.setIdx_sp (w : Word) : (s.setIdx w).sp = s.sp := rfl
@[simp] theorem State.setIdx_dt (w : Word) : (s.setIdx w).dt = s.dt := rfl
@[simp] theorem State.setIdx_st (w : Word) : (s.setIdx w).st = s.st := rfl
@[simp] theorem State.setIdx_fb (w : Word) : (s.setIdx w).fb = s.fb := rfl
@[simp] theorem State.setIdx_redraw (w : Word) : (s.setIdx w).redraw = s.redraw := rfl
@[simp] theorem State.setIdx_fault (w : Word) : (s.setIdx w).fault = s.fault := rfl

@[simp] theorem State.setPc_mem (w : Word) : (s.setPc w).mem = s.mem := rfl
@[simp] theorem State.setPc_v (w : Word) : (s.setPc w).v = s.v := rfl
@[simp] theorem State.setPc_idx (w : Word) : (s.setPc w).idx = s.idx := rfl
@[simp] theorem State.setPc_pc (w : Word) : (s.setPc w).pc = w := rfl
@[simp] theorem State.setPc_stack (w : Word) : (s.setPc w).stack = s.stack := rfl
@[simp] theorem State.setPc_sp (w : Word) : (s.setPc w).sp = s.sp := rfl
@[simp] theorem State.setPc_dt (w : Word) : (s.setPc w).dt = s.dt := rfl
@[simp] theorem State.setPc_st (w : Word) : (s.setPc w).st = s.st := rfl
@[simp] theorem State.setPc_fb (w : Word) : (s.setPc w).fb = s.fb := rfl
@[simp] theorem State.setPc_redraw (w : Word) : (s.setPc w).redraw = s.redraw := rfl
@[simp] theorem State.setPc_fault (w : Word) : (s.setPc w).fault = s.fault := rfl

@[simp] theorem State.advance_mem : (s.advance).mem = s.mem := rfl
@[simp] theorem State.advance_v : (s.advance).v = s.v := rfl
@[simp] theorem State.advance_idx : (s.advance).idx = s.idx := rfl
@[simp] theorem State.advance_pc : (s.advance).pc = s.pc + 2 := rfl
@[simp] theorem State.advance_stack : (s.advance).stack = s.stack := rfl
@[simp] theorem State.advance_sp : (s.advance).sp = s.sp := rfl
@[simp] theorem State.advance_dt : (s.advance).dt = s.dt := rfl
@[simp] theorem State.advance_st : (s.advance).st = s.st := rfl
@[simp] theorem State.advance_fb : (s.advance).fb = s.fb := rfl
@[simp] theorem State.advance_redraw : (s.advance).redraw = s.redraw := rfl
@[simp] theorem State.advance_fault : (s.advance).fault = s.fault := rfl

@[simp] theorem State.raise_mem (kind : FaultKind) (a op : Word) : (s.raise kind a op).mem = s.mem := rfl
@[simp] theorem State.raise_v (kind : FaultKind) (a op : Word) : (s.raise kind a op).v = s.v := rfl
@[simp] theorem State.raise_idx (kind : FaultKind) (a op : Word) : (s.raise kind a op).idx = s.idx := rfl
@[simp] theorem State.raise_pc (kind : FaultKind) (a op : Word) : (s.raise kind a op).pc = s.pc := rfl
@[simp] theorem State.raise_stack (kind : FaultKind) (a op : Word) : (s.raise kind a op).stack = s.stack := rfl
@[simp] theorem State.raise_sp (kind : FaultKind) (a op : Word) : (s.raise kind a op).sp = s.sp := rfl
@[simp] theorem State.raise_dt (kind : FaultKind) (a op : Word) : (s.raise kind a op).dt = s.dt := rfl
@[simp] theorem State.raise_st (kind : FaultKind) (a op : Word) : (s.raise kind a op).st = s.st := rfl
@[simp] theorem State.raise_fb (kind : FaultKind) (a op : Word) : (s.raise kind a op).fb = s.fb := rfl
@[simp] theorem State.raise_redraw (kind : FaultKind) (a op : Word) : (s.raise kind a op).redraw = s.redraw := rfl
@[simp] theorem State.raise_fault (kind : FaultKind) (a op : Word) : (s.raise kind a op).fault = ⟨kind, a, op⟩ := rfl

@[simp] theorem State.putFrame_mem (fb : FrameBuffer) : (s.putFrame fb).mem = s.mem := rfl
@[simp] theorem State.putFrame_v (fb : FrameBuffer) : (s.putFrame fb).v = s.v := rfl
@[simp] theorem State.putFrame_idx (fb : FrameBuffer) : (s.putFrame fb).idx = s.idx := rfl
@[simp] theorem State.putFrame_pc (fb : FrameBuffer) : (s.putFrame fb).pc = s.pc := rfl
@[simp] theorem State.putFrame_stack (fb : FrameBuffer) : (s.putFrame fb).stack = s.stack := rfl
@[simp] theorem State.putFrame_sp (fb : FrameBuffer) : (s.putFrame fb).sp = s.sp := rfl
@[simp] theorem State.putFrame_dt (fb : FrameBuffer) : (s.putFrame fb).dt = s.dt := rfl
@[simp] theorem State.putFrame_st (fb : FrameBuffer) : (s.putFrame fb).st = s.st := rfl
@[simp] theorem State.putFrame_fb (fb : FrameBuffer) : (s.putFrame fb).fb = fb := rfl
@[simp] theorem State.putFrame_redraw (fb : FrameBuffer) : (s.putFrame fb).redraw = true := rfl
@[simp] theorem State.putFrame_fault (fb : FrameBuffer) : (s.putFrame fb).fault = s.fault := rfl

@[simp] theorem State.writeFlag_mem (flag : Bool) : (s.writeFlag flag).mem = s.mem := rfl
@[simp] theorem State.writeFlag_v (flag : Bool) : (s.writeFlag flag).v = s.v.set flagReg.val (flagByte flag) := rfl
@[simp] theorem State.writeFlag_idx (flag : Bool) : (s.writeFlag flag).idx = s.idx := rfl
@[simp] theorem State.writeFlag_pc (flag : Bool) : (s.writeFlag flag).pc = s.pc := rfl
@[simp] theorem State.writeFlag_stack (flag : Bool) : (s.writeFlag flag).stack = s.stack := rfl
@[simp] theorem State.writeFlag_sp (flag : Bool) : (s.writeFlag flag).sp = s.sp := rfl
@[simp] theorem State.writeFlag_dt (flag : Bool) : (s.writeFlag flag).dt = s.dt := rfl
@[simp] theorem State.writeFlag_st (flag : Bool) : (s.writeFlag flag).st = s.st := rfl
@[simp] theorem State.writeFlag_fb (flag : Bool) : (s.writeFlag flag).fb = s.fb := rfl
@[simp] theorem State.writeFlag_redraw (flag : Bool) : (s.writeFlag flag).redraw = s.redraw := rfl
@[simp] theorem State.writeFlag_fault (flag : Bool) : (s.writeFlag flag).fault = s.fault := rfl

@[simp] theorem State.writeResult_mem (x : Reg) (result : Byte) (flag : Bool) : (s.writeResult x result flag).mem = s.mem := rfl
@[simp] theorem State.writeResult_v (x : Reg) (result : Byte) (flag : Bool) : (s.writeResult x result flag).v = (s.v.set x.val result).set flagReg.val (flagByte flag) := rfl
@[simp] theorem State.writeResult_idx (x : Reg) (result : Byte) (flag : Bool) : (s.writeResult x result flag).idx = s.idx := rfl
@[simp] theorem State.writeResult_pc (x : Reg) (result : Byte) (flag : Bool) : (s.writeResult x result flag).pc = s.pc := rfl
@[simp] theorem State.writeResult_stack (x : Reg) (result : Byte) (flag : Bool) : (s.writeResult x result flag).stack = s.stack := rfl
@[simp] theorem State.writeResult_sp (x : Reg) (result : Byte) (flag : Bool) : (s.writeResult x result flag).sp = s.sp := rfl
@[simp] theorem State.writeResult_dt (x : Reg) (result : Byte) (flag : Bool) : (s.writeResult x result flag).dt = s.dt := rfl
@[simp] theorem State.writeResult_st (x : Reg) (result : Byte) (flag : Bool) : (s.writeResult x result flag).st = s.st := rfl
@[simp] theorem State.writeResult_fb (x : Reg) (result : Byte) (flag : Bool) : (s.writeResult x result flag).fb = s.fb := rfl
@[simp] theorem State.writeResult_redraw (x : Reg) (result : Byte) (flag : Bool) : (s.writeResult x result flag).redraw = s.redraw := rfl
@[simp] theorem State.writeResult_fault (x : Reg) (result : Byte) (flag : Bool) : (s.writeResult x result flag).fault = s.fault := rfl

@[simp] theorem State.tick_mem : (s.tick).mem = s.mem := rfl
@[simp] theorem State.tick_v : (s.tick).v = s.v := rfl
@[simp] theorem State.tick_idx : (s.tick).idx = s.idx := rfl
@[simp] theorem State.tick_pc : (s.tick).pc = s.pc := rfl
@[simp] theorem State.tick_stack : (s.tick).stack = s.stack := rfl
@[simp] theorem State.tick_sp : (s.tick).sp = s.sp := rfl
@[simp] theorem State.tick_dt : (s.tick).dt = timerDown s.dt := rfl
@[simp] theorem State.tick_st : (s.tick).st = timerDown s.st := rfl
@[simp] theorem State.tick_fb : (s.tick).fb = s.fb := rfl
@[simp] theorem State.tick_redraw : (s.tick).redraw = s.redraw := rfl
@[simp] theorem State.tick_fault : (s.tick).fault = s.fault := rfl

theorem State.consumeRedraw_state : s.consumeRedraw.1 = { s with redraw := false } := rfl

theorem State.consumeRedraw_result : s.consumeRedraw.2 = s.redraw := rfl

@[simp] theorem State.running_iff : s.running = true ↔ s.fault.kind = .none := by simp [State.running]

@[simp] theorem State.running_eq_false_iff : s.running = false ↔ s.fault.kind ≠ .none := by simp [State.running]

@[simp] theorem State.skipIf_true : s.skipIf true = s.advance := rfl

@[simp] theorem State.skipIf_false : s.skipIf false = s := rfl

theorem State.skipIf_eq (cond : Bool) : s.skipIf cond = s.setPc (if cond then s.pc + 2 else s.pc) := by cases cond <;> rfl

end Sys2Proof.Machine
end

