-- ==== Sys2Proof/Laws/Memory.lean ====
section
/-! SUPPORT. Memory: a read after a write, a write leaves every other address alone, every operation keeps the canonical form. -/

namespace Sys2Proof.Machine

/-- Dropping an address's cells makes it read as unlisted and leaves every other address alone. -/
theorem Memory.get_filter_ne (m : Memory) (a b : Nat) :
    Memory.get (m.filter (fun c => decide (c.1 ≠ a))) b = if b = a then unlisted b else m.get b := by
  induction m with
  | nil => simp [get]
  | cons c rest ih =>
    obtain ⟨k, v⟩ := c
    by_cases hk : k = a
    · subst hk
      by_cases hb : b = k
      · simp_all
      · simp_all [get, Ne.symm hb]
    · by_cases hb : k = b
      · subst hb; simp [get, hk]
      · simp_all [get]

/-- Inserting a cell for an address that has none yet makes it read as the cell's byte. -/
theorem Memory.get_insertCell (m : Memory) (a b : Nat) (v : Byte) (h : ∀ c ∈ m, c.1 ≠ a) :
    (insertCell a v m).get b = if b = a then v else m.get b := by
  induction m with
  | nil => simp only [insertCell, get, eq_comm]
  | cons c rest ih =>
    obtain ⟨k, w⟩ := c
    have hk : k ≠ a := h (k, w) (by simp)
    have ih := ih (fun c hc => h c (by simp [hc]))
    unfold insertCell
    split
    · by_cases hb : b = a
      · simp [get, hb]
      · simp [get, hb, Ne.symm hb]
    · by_cases hkb : k = b
      · subst hkb; simp [get, hk]
      · simp [get, hkb, ih]

/-- What `set` can do, in any list of cells: the address reads as the byte, every other address as before. -/
theorem Memory.get_set (m : Memory) (a b : Nat) (v : Byte) : (m.set a v).get b = if b = a then v else m.get b := by
  have hfil : ∀ c ∈ m.filter (fun c => decide (c.1 ≠ a)), c.1 ≠ a := by simp
  unfold set
  split
  · next hv =>
    rw [get_filter_ne]
    split
    · next h => rw [h, hv]
    · rfl
  · rw [get_insertCell _ _ _ _ hfil, get_filter_ne]
    split <;> simp_all

/-- A read after a write: the byte written at the same address modulo 4096, else what was there. -/
theorem Memory.read_write (m : Memory) (a b : Nat) (v : Byte) :
    (m.write a v).read b = if b % memSize = a % memSize then v else m.read b := by
  simp only [read, write, get_set]

theorem Memory.read_mod (m : Memory) (a : Nat) : m.read (a % memSize) = m.read a := by simp [read]

/-- An address outside the bytes written reads as before. -/
theorem Memory.read_writeBytes_of_notMem (m : Memory) (a b : Nat) (bytes : List Byte)
    (h : ∀ k < bytes.length, b % memSize ≠ (a + k) % memSize) : (m.writeBytes a bytes).read b = m.read b := by
  induction bytes generalizing m a with
  | nil => rfl
  | cons v vs ih =>
    simp only [writeBytes]
    have h0 : b % memSize ≠ a % memSize := by simpa using h 0 (by simp)
    rw [ih, read_write, if_neg h0]
    intro k hk
    have := h (k + 1) (by simpa using hk)
    rwa [Nat.add_comm k 1, ← Nat.add_assoc] at this

/-- Byte `k` of the bytes written is read at `a + k`, as long as the bytes do not run once around memory. -/
theorem Memory.read_writeBytes (m : Memory) (a k : Nat) (bytes : List Byte) (hlen : bytes.length ≤ memSize)
    (hk : k < bytes.length) : (m.writeBytes a bytes).read (a + k) = bytes[k] := by
  induction bytes generalizing m a k with
  | nil => simp at hk
  | cons v vs ih =>
    simp only [List.length_cons, memSize] at hlen hk
    simp only [writeBytes]
    cases k with
    | zero =>
      rw [read_writeBytes_of_notMem, read_write]
      · simp
      · intro j hj; simp only [memSize]; omega
    | succ k =>
      have := ih (m.write a v) (a + 1) k (by simp only [memSize]; omega) (by omega)
      rw [show a + (k + 1) = a + 1 + k by omega, this]
      rfl

theorem Memory.wf_nil : Memory.wf [] := ⟨List.Pairwise.nil, by simp⟩

theorem Memory.filter_wf (m : Memory) (p : Host.Cell → Bool) (h : m.wf) : Memory.wf (m.filter p) :=
  ⟨h.1.filter _, fun c hc => h.2 c (List.mem_of_mem_filter hc)⟩

theorem Memory.mem_insertCell (m : Memory) (a : Nat) (v : Byte) (c : Host.Cell) :
    c ∈ insertCell a v m ↔ c = (a, v) ∨ c ∈ m := by
  induction m with
  | nil => simp [insertCell]
  | cons d rest ih =>
    obtain ⟨k, w⟩ := d
    unfold insertCell
    split
    · simp
    · simp [ih, or_left_comm]

theorem Memory.insertCell_sorted (m : Memory) (a : Nat) (v : Byte) (hs : m.Pairwise (fun c d => c.1 < d.1))
    (h : ∀ c ∈ m, c.1 ≠ a) : (insertCell a v m).Pairwise (fun c d => c.1 < d.1) := by
  induction m with
  | nil => simp [insertCell]
  | cons d rest ih =>
    obtain ⟨k, w⟩ := d
    have hs' := List.pairwise_cons.1 hs
    have hk : k ≠ a := h (k, w) (by simp)
    unfold insertCell
    split
    · next hlt =>
      refine List.pairwise_cons.2 ⟨?_, hs⟩
      intro c hc
      rcases List.mem_cons.1 hc with rfl | hc
      · exact hlt
      · exact lt_trans hlt (hs'.1 c hc)
    · next hge =>
      refine List.pairwise_cons.2 ⟨?_, ih hs'.2 (fun c hc => h c (by simp [hc]))⟩
      intro c hc
      rcases (mem_insertCell _ _ _ _).1 hc with rfl | hc
      · show k < a; omega
      · exact hs'.1 c hc

theorem Memory.set_wf (m : Memory) (a : Nat) (v : Byte) (ha : a < memSize) (h : m.wf) : (m.set a v).wf := by
  have hf := filter_wf m (fun c => decide (c.1 ≠ a)) h
  unfold set
  split
  · exact hf
  · next hv =>
    refine ⟨insertCell_sorted _ _ _ hf.1 (by simp), ?_⟩
    intro c hc
    rcases (mem_insertCell _ _ _ _).1 hc with rfl | hc
    · exact ⟨ha, hv⟩
    · exact hf.2 c hc

theorem Memory.write_wf (m : Memory) (a : Nat) (v : Byte) (h : m.wf) : (m.write a v).wf :=
  set_wf m _ v (Nat.mod_lt _ (by decide)) h

theorem Memory.writeBytes_wf (m : Memory) (a : Nat) (bytes : List Byte) (h : m.wf) : (m.writeBytes a bytes).wf := by
  induction bytes generalizing m a with
  | nil => exact h
  | cons v vs ih => exact ih _ _ (write_wf m a v h)

/-- Only the low 12 bits of an address matter. -/
theorem Memory.read_congr (m : Memory) (a b : Nat) (h : a % memSize = b % memSize) : m.read a = m.read b := by
  simp only [read, h]

/-- Only the low 12 bits of the first address of a store matter. -/
theorem Memory.writeBytes_congr (m : Memory) (a b : Nat) (bytes : List Byte) (h : a % memSize = b % memSize) :
    m.writeBytes a bytes = m.writeBytes b bytes := by
  induction bytes generalizing m a b with
  | nil => rfl
  | cons v vs ih =>
    simp only [writeBytes, write, h]
    exact ih _ _ _ (by simp only [memSize] at *; omega)

end Sys2Proof.Machine
end

