-- ==== Sys2Proof/Laws/Ops.lean ====
section
/-! SUPPORT. What each shared operation can do: registers, stores, loads, fetch, push and pop. -/

namespace Sys2Proof.Machine

/-- A register read after a register write. -/
theorem State.readV_writeV (s : State) (r q : Reg) (b : Byte) : (s.writeV r b).readV q = if q = r then b else s.readV q := by
  simp only [State.readV, State.writeV, Vector.getElem_set, Fin.ext_iff, eq_comm]

theorem State.readV_writeFlag (s : State) (q : Reg) (flag : Bool) :
    (s.writeFlag flag).readV q = if q = flagReg then flagByte flag else s.readV q := s.readV_writeV flagReg q _

/-- Result first, flag last (42_register_alu.md R100): VF holds the flag, V[X] the result unless X = 15. -/
theorem State.readV_writeResult (s : State) (x q : Reg) (result : Byte) (flag : Bool) :
    (s.writeResult x result flag).readV q =
      if q = flagReg then flagByte flag else if q = x then result else s.readV q := by
  simp only [State.writeResult, State.readV_writeFlag, State.readV_writeV]

/-! Register reads and memory reads through every operation that does not write them. -/

@[simp] theorem State.readV_storeBytes (s : State) (addr : Nat) (bytes : List Byte) (r : Reg) : (s.storeBytes addr bytes).readV r = s.readV r := rfl
@[simp] theorem State.readV_setIdx (s : State) (w : Word) (r : Reg) : (s.setIdx w).readV r = s.readV r := rfl
@[simp] theorem State.readV_setPc (s : State) (w : Word) (r : Reg) : (s.setPc w).readV r = s.readV r := rfl
@[simp] theorem State.readV_advance (s : State) (r : Reg) : (s.advance).readV r = s.readV r := rfl
@[simp] theorem State.readV_raise (s : State) (kind : FaultKind) (a op : Word) (r : Reg) : (s.raise kind a op).readV r = s.readV r := rfl
@[simp] theorem State.readV_putFrame (s : State) (fb : FrameBuffer) (r : Reg) : (s.putFrame fb).readV r = s.readV r := rfl
@[simp] theorem State.readV_tick (s : State) (r : Reg) : (s.tick).readV r = s.readV r := rfl
@[simp] theorem State.readV_skipIf (s : State) (cond : Bool) (r : Reg) : (s.skipIf cond).readV r = s.readV r := by cases cond <;> rfl

@[simp] theorem State.readMem_writeV (s : State) (r : Reg) (b : Byte) (a : Nat) : (s.writeV r b).readMem a = s.readMem a := rfl
@[simp] theorem State.readMem_writeFlag (s : State) (flag : Bool) (a : Nat) : (s.writeFlag flag).readMem a = s.readMem a := rfl
@[simp] theorem State.readMem_writeResult (s : State) (x : Reg) (result : Byte) (flag : Bool) (a : Nat) : (s.writeResult x result flag).readMem a = s.readMem a := rfl
@[simp] theorem State.readMem_setIdx (s : State) (w : Word) (a : Nat) : (s.setIdx w).readMem a = s.readMem a := rfl
@[simp] theorem State.readMem_setPc (s : State) (w : Word) (a : Nat) : (s.setPc w).readMem a = s.readMem a := rfl
@[simp] theorem State.readMem_advance (s : State) (a : Nat) : (s.advance).readMem a = s.readMem a := rfl
@[simp] theorem State.readMem_raise (s : State) (kind : FaultKind) (a op : Word) (k : Nat) : (s.raise kind a op).readMem k = s.readMem k := rfl
@[simp] theorem State.readMem_putFrame (s : State) (fb : FrameBuffer) (a : Nat) : (s.putFrame fb).readMem a = s.readMem a := rfl
@[simp] theorem State.readMem_tick (s : State) (a : Nat) : (s.tick).readMem a = s.readMem a := rfl
@[simp] theorem State.readMem_skipIf (s : State) (cond : Bool) (a : Nat) : (s.skipIf cond).readMem a = s.readMem a := by cases cond <;> rfl

/-- Registers read only the register file. -/
theorem State.readV_congr {s t : State} (h : t.v = s.v) (r : Reg) : t.readV r = s.readV r := by simp only [State.readV, h]

/-- Memory reads depend on memory only. -/
theorem State.readMem_congr {s t : State} (h : t.mem = s.mem) (a : Nat) : t.readMem a = s.readMem a := by
  simp only [State.readMem, h]

theorem flagByte_toNat (b : Bool) : (flagByte b).toNat = if b then 1 else 0 := by cases b <;> rfl

/-- An address outside the range stored to reads as before. -/
theorem State.readMem_storeBytes_of_notMem (s : State) (addr a : Nat) (bytes : List Byte)
    (h : a % memSize ∉ addressRange addr bytes.length) : (s.storeBytes addr bytes).readMem a = s.readMem a := by
  refine Memory.read_writeBytes_of_notMem _ _ _ _ fun k hk heq => h ?_
  exact List.mem_map.2 ⟨k, List.mem_range.2 hk, heq.symm⟩

/-- Byte `k` stored is read back at `addr + k`. -/
theorem State.readMem_storeBytes (s : State) (addr k : Nat) (bytes : List Byte) (hlen : bytes.length ≤ memSize)
    (hk : k < bytes.length) : (s.storeBytes addr bytes).readMem (addr + k) = bytes[k] :=
  Memory.read_writeBytes _ _ _ _ hlen hk

theorem State.regBytes_length (s : State) (x : Reg) : (s.regBytes x).length = x.val + 1 := by
  simp [State.regBytes]

theorem State.regBytes_getElem (s : State) (x : Reg) (k : Nat) (hk : k < (s.regBytes x).length) :
    (s.regBytes x)[k] = s.v[k]'(by rw [s.regBytes_length] at hk; omega) := by
  simp [State.regBytes]

/-- What a load can do: V0 to V(n-1) receive the bytes from `addr` on, every other register keeps its value. -/
theorem State.readV_loadRegs (s : State) (addr n : Nat) (hn : n ≤ 16) (q : Reg) :
    (s.loadRegs addr n).readV q = if q.val < n then s.readMem (addr + q.val) else s.readV q := by
  induction n with
  | zero => simp [State.loadRegs]
  | succ k ih =>
    rw [State.loadRegs, State.readV_writeV, ih (by omega)]
    have hk : (Fin.ofNat 16 k).val = k := Nat.mod_eq_of_lt (by omega)
    by_cases h : q.val = k
    · rw [if_pos (Fin.ext (h.trans hk.symm)), if_pos (by omega), h]
    · rw [if_neg (fun e => h (by rw [e, hk]))]
      by_cases hlt : q.val < k
      · rw [if_pos hlt, if_pos (by omega)]
      · rw [if_neg hlt, if_neg (by omega)]

/-- A load changes the register file and nothing else. -/
theorem State.loadRegs_eq (s : State) (addr n : Nat) : s.loadRegs addr n = { s with v := (s.loadRegs addr n).v } := by
  induction n with
  | zero => rfl
  | succ k ih =>
    rw [State.loadRegs]
    generalize hb : s.readMem (addr + k) = b
    rw [ih]
    rfl

/-- The fetched word depends on memory and PC only. -/
theorem State.wordAt_congr {s t : State} (h : t.mem = s.mem) (a : Nat) : t.wordAt a = s.wordAt a := by
  simp only [State.wordAt, State.readMem, h]

/-- The opcode of two bytes as a number (20_memory.md R43). -/
theorem opcodeOfBytes_toNat (hi lo : Byte) : (opcodeOfBytes hi lo).toNat = hi.toNat * 256 + lo.toNat := by
  have := lo.isLt
  simp only [opcodeOfBytes, BitVec.toNat_append]
  rw [← Nat.shiftLeft_add_eq_or_of_lt lo.isLt, Nat.shiftLeft_eq]

/-- The bytes of a word form the word. -/
theorem opcodeOfBytes_high_low (op : Word) : opcodeOfBytes (highByte op) (lowByte op) = op := by
  apply BitVec.eq_of_toNat_eq
  rw [opcodeOfBytes_toNat]
  have := op.isLt
  simp only [highByte, lowByte, BitVec.extractLsb'_toNat, Nat.shiftRight_eq_div_pow]
  omega

/-- A placed word is the word the next step fetches. -/
theorem State.fetch_placeWord (s : State) (op : Word) : (s.placeWord op).fetch = op := by
  have h0 := s.readMem_storeBytes s.pc.toNat 0 [highByte op, lowByte op] (by simp [memSize]) (by simp)
  have h1 := s.readMem_storeBytes s.pc.toNat 1 [highByte op, lowByte op] (by simp [memSize]) (by simp)
  simp only [Nat.add_zero, List.getElem_cons_zero, List.getElem_cons_succ] at h0 h1
  show opcodeOfBytes ((s.storeBytes s.pc.toNat [highByte op, lowByte op]).readMem s.pc.toNat)
    ((s.storeBytes s.pc.toNat [highByte op, lowByte op]).readMem (s.pc.toNat + 1)) = op
  rw [h0, h1, opcodeOfBytes_high_low]

/-- Push on a full stack gives nothing (10_state.md R20). -/
theorem State.push_full (s : State) (w : Word) (h : s.sp = 16) : s.push w = none := by
  have : s.sp.val = 16 := by rw [h]; rfl
  simp [State.push, this]

/-- Push on a stack that is not full: the entry at SP receives the value, SP is one higher, nothing else changes (10_state.md R20). -/
theorem State.push_eq_some (s : State) (w : Word) (h : s.sp.val < 16) :
    ∃ t, s.push w = some t ∧ t = { s with stack := s.stack.set s.sp.val w h, sp := t.sp } ∧ t.sp.val = s.sp.val + 1 :=
  ⟨_, dif_pos h, rfl, rfl⟩

/-- Pop of an empty stack gives nothing (10_state.md R21). -/
theorem State.pop_empty (s : State) (h : s.sp = 0) : s.pop = none := by
  have : s.sp.val = 0 := by rw [h]; rfl
  simp [State.pop, this]

/-- Pop of a stack that is not empty: the newest entry, SP one lower, nothing else changes (10_state.md R21). -/
theorem State.pop_eq_some (s : State) (h : 0 < s.sp.val) :
    ∃ w t, s.pop = some (w, t) ∧ s.stack[s.sp.val - 1]? = some w ∧ t = { s with sp := t.sp } ∧ t.sp.val + 1 = s.sp.val := by
  refine ⟨_, _, dif_pos h, ?_, rfl, ?_⟩
  · exact Vector.getElem?_eq_getElem _
  · show s.sp.val - 1 + 1 = s.sp.val
    omega

end Sys2Proof.Machine
end

