-- ==== Sys2Proof/Laws/Decode.lean ====
section
/-! SUPPORT. Opcode fields as numbers, and the fields of the encoder's words. -/

namespace Sys2Proof

theorem opClass_toNat (op : Word) : (opClass op).toNat = op.toNat / 4096 := by
  have := op.isLt
  simp only [opClass, BitVec.extractLsb'_toNat, Nat.shiftRight_eq_div_pow]
  omega

theorem fieldX_val (op : Word) : (fieldX op).val = op.toNat / 256 % 16 := by
  show (op.extractLsb' 8 4).toNat = _
  simp only [BitVec.extractLsb'_toNat, Nat.shiftRight_eq_div_pow]

theorem fieldY_val (op : Word) : (fieldY op).val = op.toNat / 16 % 16 := by
  show (op.extractLsb' 4 4).toNat = _
  simp only [BitVec.extractLsb'_toNat, Nat.shiftRight_eq_div_pow]

theorem fieldN_toNat (op : Word) : (fieldN op).toNat = op.toNat % 16 := by
  simp only [fieldN, BitVec.extractLsb'_toNat, Nat.shiftRight_zero]

theorem fieldNN_toNat (op : Word) : (fieldNN op).toNat = op.toNat % 256 := by
  simp only [fieldNN, BitVec.extractLsb'_toNat, Nat.shiftRight_zero]

theorem fieldNNN_toNat (op : Word) : (fieldNNN op).toNat = op.toNat % 4096 := by
  simp only [fieldNNN, BitVec.extractLsb'_toNat, Nat.shiftRight_zero]

theorem wordXYN_toNat (c : Nibble) (x y : Reg) (n : Nibble) :
    (wordXYN c x y n).toNat = c.toNat * 4096 + x.val * 256 + y.val * 16 + n.toNat := by
  simp only [wordXYN, BitVec.toNat_append]
  rw [← Nat.shiftLeft_add_eq_or_of_lt n.isLt, ← Nat.shiftLeft_add_eq_or_of_lt (regBits y).isLt,
    ← Nat.shiftLeft_add_eq_or_of_lt (regBits x).isLt]
  simp only [Nat.shiftLeft_eq]
  show ((c.toNat * 2 ^ 4 + x.val) * 2 ^ 4 + y.val) * 2 ^ 4 + n.toNat = _
  omega

theorem wordXNN_toNat (c : Nibble) (x : Reg) (nn : Byte) :
    (wordXNN c x nn).toNat = c.toNat * 4096 + x.val * 256 + nn.toNat := by
  simp only [wordXNN, BitVec.toNat_append]
  rw [← Nat.shiftLeft_add_eq_or_of_lt nn.isLt, ← Nat.shiftLeft_add_eq_or_of_lt (regBits x).isLt]
  simp only [Nat.shiftLeft_eq]
  show (c.toNat * 2 ^ 4 + x.val) * 2 ^ 8 + nn.toNat = _
  omega

theorem wordNNN_toNat (c : Nibble) (nnn : Addr) : (wordNNN c nnn).toNat = c.toNat * 4096 + nnn.toNat := by
  simp only [wordNNN, BitVec.toNat_append]
  rw [← Nat.shiftLeft_add_eq_or_of_lt nnn.isLt, Nat.shiftLeft_eq]

/-- A word written as a number, digit by digit, is the encoder's word. -/
theorem ofNat_eq_wordXYN (c : Nibble) (x y : Reg) (n : Nibble) :
    BitVec.ofNat 16 (c.toNat * 4096 + x.val * 256 + y.val * 16 + n.toNat) = wordXYN c x y n := by
  rw [← wordXYN_toNat, BitVec.ofNat_toNat, BitVec.setWidth_eq]

theorem ofNat_eq_wordXNN (c : Nibble) (x : Reg) (nn : Byte) :
    BitVec.ofNat 16 (c.toNat * 4096 + x.val * 256 + nn.toNat) = wordXNN c x nn := by
  rw [← wordXNN_toNat, BitVec.ofNat_toNat, BitVec.setWidth_eq]

theorem ofNat_eq_wordNNN (c : Nibble) (nnn : Addr) :
    BitVec.ofNat 16 (c.toNat * 4096 + nnn.toNat) = wordNNN c nnn := by
  rw [← wordNNN_toNat, BitVec.ofNat_toNat, BitVec.setWidth_eq]

theorem opClass_wordXYN (c : Nibble) (x y : Reg) (n : Nibble) : opClass (wordXYN c x y n) = c := by
  apply BitVec.eq_of_toNat_eq
  rw [opClass_toNat, wordXYN_toNat]
  omega

theorem fieldX_wordXYN (c : Nibble) (x y : Reg) (n : Nibble) : fieldX (wordXYN c x y n) = x := by
  apply Fin.ext
  rw [fieldX_val, wordXYN_toNat]
  omega

theorem fieldY_wordXYN (c : Nibble) (x y : Reg) (n : Nibble) : fieldY (wordXYN c x y n) = y := by
  apply Fin.ext
  rw [fieldY_val, wordXYN_toNat]
  omega

theorem fieldN_wordXYN (c : Nibble) (x y : Reg) (n : Nibble) : fieldN (wordXYN c x y n) = n := by
  apply BitVec.eq_of_toNat_eq
  rw [fieldN_toNat, wordXYN_toNat]
  omega

theorem opClass_wordXNN (c : Nibble) (x : Reg) (nn : Byte) : opClass (wordXNN c x nn) = c := by
  apply BitVec.eq_of_toNat_eq
  rw [opClass_toNat, wordXNN_toNat]
  omega

theorem fieldX_wordXNN (c : Nibble) (x : Reg) (nn : Byte) : fieldX (wordXNN c x nn) = x := by
  apply Fin.ext
  rw [fieldX_val, wordXNN_toNat]
  omega

theorem fieldNN_wordXNN (c : Nibble) (x : Reg) (nn : Byte) : fieldNN (wordXNN c x nn) = nn := by
  apply BitVec.eq_of_toNat_eq
  rw [fieldNN_toNat, wordXNN_toNat]
  omega

theorem opClass_wordNNN (c : Nibble) (nnn : Addr) : opClass (wordNNN c nnn) = c := by
  apply BitVec.eq_of_toNat_eq
  rw [opClass_toNat, wordNNN_toNat]
  omega

theorem fieldNNN_wordNNN (c : Nibble) (nnn : Addr) : fieldNNN (wordNNN c nnn) = nnn := by
  apply BitVec.eq_of_toNat_eq
  rw [fieldNNN_toNat, wordNNN_toNat]
  omega

/-- Only the word 00EE decodes to RET. -/
theorem eq_of_decodeWith_ret {strict : Bool} {op : Word} (h : decodeWith strict op = .ok .ret) : op = 0x00EE := by
  revert h
  unfold decodeWith decodeClass8 decodeClassF
  split
  · split
    · simp
    · split <;> simp_all
  all_goals repeat' split
  all_goals simp

/-- Only its own encoding decodes to CALL. -/
theorem eq_of_decodeWith_call {strict : Bool} {op : Word} {nnn : Addr} (h : decodeWith strict op = .ok (.call nnn)) :
    op = encode (.call nnn) := by
  have hc : (opClass op).toNat = 2 ∧ fieldNNN op = nnn := by
    revert h
    unfold decodeWith decodeClass8 decodeClassF
    split
    case h_3 hc => exact fun h => ⟨hc, by simpa using h⟩
    all_goals repeat' split
    all_goals simp
  apply BitVec.eq_of_toNat_eq
  rw [encode, wordNNN_toNat, ← hc.2, fieldNNN_toNat]
  have := opClass_toNat op
  show _ = 2 * 4096 + _
  omega

/-- AND digit group by digit group: what a mask of the opcode map does to a word. -/
theorem and_append {m n : Nat} (a c : BitVec m) (b d : BitVec n) : (a ++ b) &&& (c ++ d) = (a &&& c) ++ (b &&& d) := by
  apply BitVec.eq_of_getLsbD_eq
  intro i _
  simp only [BitVec.getLsbD_and, BitVec.getLsbD_append]
  split <;> rfl

end Sys2Proof
end

