-- ==== Sys2Proof/Laws/Frame.lean ====
section
/-! SUPPORT. The frame buffer and the sprite engine, pixel by pixel (44_display.md R131 to R133). -/

namespace Sys2Proof.Machine

theorem FrameBuffer.pixel_clear (x y : Nat) : FrameBuffer.clear.pixel x y = false := by
  simp [FrameBuffer.pixel, FrameBuffer.clear]

/-- A flip inverts the one pixel at the reduced coordinates. -/
theorem FrameBuffer.pixel_flip (fb : FrameBuffer) (x y px py : Nat) :
    (fb.flip x y).pixel px py =
      (fb.pixel px py ^^ (decide (x % fbWidth = px % fbWidth) && decide (y % fbHeight = py % fbHeight))) := by
  have hx : px % fbWidth < 64 := Nat.mod_lt _ (by decide)
  simp only [FrameBuffer.pixel, FrameBuffer.flip, Vector.getElem_set]
  by_cases hy : y % fbHeight = py % fbHeight
  · simp only [hy, if_true, BitVec.getLsbD_xor, BitVec.getLsbD_twoPow, decide_true, Bool.and_true]
    by_cases hxx : x % fbWidth = px % fbWidth <;> simp [hxx, hx]
  · simp [hy]

/-- What one sprite bit can do to a pixel and to the collision flag. -/
theorem Canvas.put_pixel (k : Canvas) (x y px py : Nat) (bit : Bool) :
    (k.put x y bit).1.pixel px py =
      (k.1.pixel px py ^^ (bit && decide (x % fbWidth = px % fbWidth) && decide (y % fbHeight = py % fbHeight))) := by
  cases bit <;> simp [Canvas.put, FrameBuffer.pixel_flip]

theorem Canvas.put_collision (k : Canvas) (x y : Nat) (bit : Bool) :
    (k.put x y bit).2 = (k.2 || (bit && k.1.pixel x y)) := by
  cases bit <;> simp [Canvas.put]

/-- Two frame buffers with the same pixels are the same. -/
theorem FrameBuffer.ext_pixel {fb gb : FrameBuffer} (h : ∀ x y, x < fbWidth → y < fbHeight → fb.pixel x y = gb.pixel x y) :
    fb = gb := by
  apply Vector.ext
  intro y hy
  apply BitVec.eq_of_getLsbD_eq
  intro x hx
  have := h x y hx hy
  simpa [FrameBuffer.pixel, Nat.mod_eq_of_lt hx, Nat.mod_eq_of_lt hy] using this

end Sys2Proof.Machine
end

