-- ==== Sys2Proof/Laws/Exec.lean ====
section
/-! SUPPORT. What execution and a step can do, said once: every later proof cites these and unfolds neither. -/

namespace Sys2Proof.Machine

/-- Execution answers a next state for every instruction, at every configuration. -/
theorem execWith_next (cfg : Config) (i : Instr) (s : State) : ∃ t, execWith cfg i s = .next t := by
  cases i with
  | ret => simp only [execWith, exec, execRet]; cases s.pop <;> exact ⟨_, rfl⟩
  | call nnn => simp only [execWith, exec, execCall]; cases s.push s.pc <;> exact ⟨_, rfl⟩
  | _ => exact ⟨_, rfl⟩

/-- `exec` is execution at the default configuration. -/
theorem exec_eq_execWith (i : Instr) (s : State) : exec i s = execWith Config.default i s := by cases i <;> rfl

/-- `step` is the step at the default configuration. -/
theorem step_eq_stepWith_default (s : State) : step s = stepWith Config.default s := by
  unfold step stepWith decode
  cases s.running with
  | false => rfl
  | true =>
    cases decodeWith Config.default.strictSkipDecode s.fetch with
    | ok i => exact exec_eq_execWith i s.advance
    | error e => rfl

/-- 00EE on a stack that is not empty. -/
theorem execRet_of_pos (s : State) (h : 0 < s.sp.val) :
    ∃ w t, exec .ret s = .next t ∧ s.stack[s.sp.val - 1]? = some w ∧ t = { s with pc := w, sp := t.sp } ∧
      t.sp.val + 1 = s.sp.val := by
  obtain ⟨w, t, hp, hw, ht, hsp⟩ := s.pop_eq_some h
  refine ⟨w, t.setPc w, ?_, hw, ?_, hsp⟩
  · simp only [exec, execRet, hp]
  · rw [ht]; rfl

/-- 00EE on an empty stack. -/
theorem execRet_of_zero (s : State) (h : s.sp.val = 0) :
    exec .ret s = .next (s.raise .stackUnderflow (s.pc - 2) 0x00EE) := by
  have hp := s.pop_empty (Fin.ext h)
  simp only [exec, execRet, hp, State.fetchAddress, encode]

/-- 2NNN on a stack that is not full. -/
theorem execCall_of_lt (s : State) (nnn : Addr) (h : s.sp.val < 16) :
    ∃ t, exec (.call nnn) s = .next t ∧
      t = { s with pc := zext16 nnn, stack := s.stack.set s.sp.val s.pc h, sp := t.sp } ∧ t.sp.val = s.sp.val + 1 := by
  obtain ⟨t, hp, ht, hsp⟩ := s.push_eq_some s.pc h
  refine ⟨t.setPc (zext16 nnn), ?_, ?_, hsp⟩
  · simp only [exec, execCall, hp]
  · rw [ht]; rfl

/-- 2NNN on a full stack. -/
theorem execCall_of_full (s : State) (nnn : Addr) (h : s.sp.val = 16) :
    exec (.call nnn) s = .next (s.raise .stackOverflow (s.pc - 2) (encode (.call nnn))) := by
  have hp := s.push_full s.pc (Fin.ext h)
  simp only [exec, execCall, hp, State.fetchAddress]

/-- Execution leaves FAULT alone, or is one of the two stack errors. -/
theorem execWith_fault {cfg : Config} {i : Instr} {s t : State} (h : execWith cfg i s = .next t) :
    t.fault = s.fault ∨
    (∃ nnn, i = .call nnn ∧ s.sp.val = 16 ∧ t = s.raise .stackOverflow (s.pc - 2) (encode i)) ∨
    (i = .ret ∧ s.sp.val = 0 ∧ t = s.raise .stackUnderflow (s.pc - 2) 0x00EE) := by
  cases i
  case call nnn =>
    by_cases hs : s.sp.val < 16
    · obtain ⟨u, he, hu, _⟩ := execCall_of_lt s nnn hs
      have htu : u = t := by simpa using he.symm.trans h
      exact .inl (by rw [← htu, hu])
    · have h16 : s.sp.val = 16 := by have := s.sp.isLt; omega
      exact .inr (.inl ⟨nnn, rfl, h16, by simpa using h.symm.trans (execCall_of_full s nnn h16)⟩)
  case ret =>
    by_cases hs : 0 < s.sp.val
    · obtain ⟨w, u, he, _, hu, _⟩ := execRet_of_pos s hs
      have htu : u = t := by simpa using he.symm.trans h
      exact .inl (by rw [← htu, hu])
    · have h0 : s.sp.val = 0 := by omega
      exact .inr (.inr ⟨rfl, h0, by simpa using h.symm.trans (execRet_of_zero s h0)⟩)
  case ldRegs x => injection h with h; rw [← h, s.loadRegs_eq]; exact .inl rfl
  all_goals
    injection h with h
    rw [← h]
    first | exact .inl rfl | exact .inl (by rw [State.skipIf_eq]; rfl)

/-- Execution leaves memory alone or stores one run of bytes. -/
theorem execWith_mem {cfg : Config} {i : Instr} {s t : State} (h : execWith cfg i s = .next t) :
    t.mem = s.mem ∨ ∃ addr bytes, t.mem = s.mem.writeBytes addr bytes := by
  cases i
  case call nnn =>
    by_cases hs : s.sp.val < 16
    · obtain ⟨u, he, hu, _⟩ := execCall_of_lt s nnn hs
      have htu : u = t := by simpa using he.symm.trans h
      exact .inl (by rw [← htu, hu])
    · have h16 : s.sp.val = 16 := by have := s.sp.isLt; omega
      have ht : s.raise .stackOverflow (s.pc - 2) (encode (.call nnn)) = t := by simpa using (execCall_of_full s nnn h16).symm.trans h
      exact .inl (by rw [← ht, State.raise_mem])
  case ret =>
    by_cases hs : 0 < s.sp.val
    · obtain ⟨w, u, he, _, hu, _⟩ := execRet_of_pos s hs
      have htu : u = t := by simpa using he.symm.trans h
      exact .inl (by rw [← htu, hu])
    · have ht : s.raise .stackUnderflow (s.pc - 2) 0x00EE = t := by simpa using (execRet_of_zero s (by omega)).symm.trans h
      exact .inl (by rw [← ht, State.raise_mem])
  case ldRegs x => injection h with h; rw [← h, s.loadRegs_eq]; exact .inl rfl
  all_goals
    injection h with h
    rw [← h]
    first | exact .inl rfl | exact .inr ⟨_, _, rfl⟩ | exact .inl (by rw [State.skipIf_eq]; rfl)

/-- What a step can do: nothing, with a fault latched; the decoded instruction on the advanced state; or UnknownOpcode. -/
theorem stepWith_cases {cfg : Config} {s t : State} (h : stepWith cfg s = .next t) :
    (s.fault.kind ≠ .none ∧ t = s) ∨
    (s.fault.kind = .none ∧ ∃ i, decodeWith cfg.strictSkipDecode s.fetch = .ok i ∧ execWith cfg i s.advance = .next t) ∨
    (s.fault.kind = .none ∧ ∃ e, decodeWith cfg.strictSkipDecode s.fetch = .error e ∧ t = s.raiseUnknown) := by
  unfold stepWith at h
  split at h
  · next hr =>
    have hr := s.running_iff.1 hr
    split at h
    · next i hi => exact .inr (.inl ⟨hr, i, hi, h⟩)
    · next e he => exact .inr (.inr ⟨hr, e, he, by injection h with h; exact h.symm⟩)
  · next hr => exact .inl ⟨by simpa using hr, by injection h with h; exact h.symm⟩

/-- A step of a running machine whose word decodes. -/
theorem stepWith_of_ok {cfg : Config} {s : State} {i : Instr} (hr : s.fault.kind = .none)
    (hi : decodeWith cfg.strictSkipDecode s.fetch = .ok i) : stepWith cfg s = execWith cfg i s.advance := by
  simp only [stepWith, s.running_iff.2 hr, if_true, hi]

/-- A step of a running machine whose word is illegal. -/
theorem stepWith_of_error {cfg : Config} {s : State} {e : DecodeError} (hr : s.fault.kind = .none)
    (he : decodeWith cfg.strictSkipDecode s.fetch = .error e) : stepWith cfg s = .next s.raiseUnknown := by
  simp only [stepWith, s.running_iff.2 hr, if_true, he]

/-- A step of a machine that has stopped. -/
theorem stepWith_of_fault {cfg : Config} {s : State} (hr : s.fault.kind ≠ .none) : stepWith cfg s = .next s := by
  simp only [stepWith, s.running_eq_false_iff.2 hr, Bool.false_eq_true, if_false]

/-- Every step answers a next state. -/
theorem stepWith_next (cfg : Config) (s : State) : ∃ t, stepWith cfg s = .next t := by
  by_cases h : s.fault.kind = .none
  · cases hd : decodeWith cfg.strictSkipDecode s.fetch with
    | ok i => rw [stepWith_of_ok h hd]; exact execWith_next cfg i s.advance
    | error e => exact ⟨_, stepWith_of_error h hd⟩
  · exact ⟨_, stepWith_of_fault h⟩

/-- The executing instruction's own address, seen from the advanced state. -/
theorem advance_pc_sub_two (s : State) : s.advance.pc - 2 = s.pc := by simp

end Sys2Proof.Machine
end

