-- ==== Sys2Proof/Laws/Host.lean ====
section
/-! SUPPORT. The host's operations: what memory holds after Reset, and the canonical form after it. -/

namespace Sys2Proof.Machine

/-- What every address holds after a successful Reset (10_state.md R30): the glyph table, the ROM, zeros. -/
theorem State.readMem_load (cfg : Config) (rom : List Byte) (a : Nat) (hl : rom.length ≤ maxRom) (ha : a < memSize) :
    (State.load cfg rom).readMem a =
      if h : fontBase ≤ a ∧ a < fontBase + fontLen then cfg.font[a - fontBase]'(by omega)
      else if h : progBase ≤ a ∧ a < progBase + rom.length then rom[a - progBase]'(by omega) else 0 := by
  simp only [maxRom] at hl
  simp only [memSize] at ha
  show ((Memory.writeBytes [] fontBase cfg.font.toList).writeBytes progBase rom).read a = _
  by_cases hr : progBase ≤ a ∧ a < progBase + rom.length
  · rw [dif_neg (by simp only [fontBase, fontLen, progBase] at *; omega), dif_pos hr]
    obtain ⟨k, rfl⟩ : ∃ k, a = progBase + k := ⟨a - progBase, by omega⟩
    rw [Memory.read_writeBytes _ _ _ _ (by simp only [memSize]; omega) (by omega)]
    simp only [Nat.add_sub_cancel_left]
  · rw [Memory.read_writeBytes_of_notMem _ _ _ _ (by
      intro k hk; simp only [memSize, progBase] at *; omega)]
    by_cases hf : fontBase ≤ a ∧ a < fontBase + fontLen
    · rw [dif_pos hf]
      obtain ⟨k, rfl⟩ : ∃ k, a = fontBase + k := ⟨a - fontBase, by omega⟩
      rw [Memory.read_writeBytes _ _ _ _ (by simp [memSize, fontLen]) (by simp; omega)]
      simp only [Nat.add_sub_cancel_left, Vector.getElem_toList]
    · rw [dif_neg hf, dif_neg hr, Memory.read_writeBytes_of_notMem _ _ _ _ (by
        intro k hk; simp only [Vector.length_toList] at hk; simp only [memSize, fontBase, fontLen] at *; omega)]
      simp only [Memory.read, Memory.get, Memory.unlisted, Nat.mod_eq_of_lt ha, dif_neg hf]

/-- Memory after Reset is in canonical form. -/
theorem Memory.load_wf (font : Vector Byte fontLen) (rom : List Byte) : (Memory.load font rom).wf :=
  Memory.writeBytes_wf _ _ _ (Memory.writeBytes_wf _ _ _ Memory.wf_nil)

/-- Memory of the reset state is in canonical form. -/
theorem State.reset_mem_wf : State.reset.mem.wf := Memory.wf_nil

/-- A store keeps memory in canonical form. -/
theorem State.storeBytes_mem_wf (s : State) (addr : Nat) (bytes : List Byte) (h : s.mem.wf) : (s.storeBytes addr bytes).mem.wf :=
  Memory.writeBytes_wf _ _ _ h

/-- Placing a word keeps memory in canonical form. -/
theorem State.placeWord_mem_wf (s : State) (op : Word) (h : s.mem.wf) : (s.placeWord op).mem.wf := Memory.writeBytes_wf _ _ _ h

/-- One tick of one timer. -/
theorem timerDown_toNat (b : Byte) : (timerDown b).toNat = b.toNat - 1 := by
  revert b; decide

end Sys2Proof.Machine
end

