-- ==== Sys2Proof/Laws/PerInstr.lean ====
section
/-! SUPPORT. Per instruction: the encoding of every instruction is selected by its own row of the opcode map (30_encoding.md R63),
at either value of `STRICT_SKIP_DECODE`. -/

namespace Sys2Proof.Laws.EncodingRow

/-- The row an instruction belongs to selects its encoding. -/
def Statement (i : Instr) : Prop := ∀ strict : Bool, ∃ row ∈ opcodeTable strict, row.id = i.row ∧ row.selects (encode i) = true

theorem nibble_and_F (c : Nibble) : c &&& 15#4 = c := by revert c; decide

theorem xyn_and_F00F (c : Nibble) (x y : Reg) (n : Nibble) : wordXYN c x y n &&& 0xF00F = wordXYN c 0 0 n := by
  show (c ++ regBits x ++ regBits y ++ n) &&& (15#4 ++ 0#4 ++ 0#4 ++ 15#4) = c ++ 0#4 ++ 0#4 ++ n
  rw [and_append, and_append, and_append, nibble_and_F, nibble_and_F, BitVec.and_zero, BitVec.and_zero]

theorem xyn_and_F000 (c : Nibble) (x y : Reg) (n : Nibble) : wordXYN c x y n &&& 0xF000 = wordXYN c 0 0 0 := by
  show (c ++ regBits x ++ regBits y ++ n) &&& (15#4 ++ 0#4 ++ 0#4 ++ 0#4) = c ++ 0#4 ++ 0#4 ++ 0#4
  rw [and_append, and_append, and_append, nibble_and_F, BitVec.and_zero, BitVec.and_zero, BitVec.and_zero]

theorem xnn_and_F000 (c : Nibble) (x : Reg) (nn : Byte) : wordXNN c x nn &&& 0xF000 = wordXNN c 0 0 := by
  show (c ++ regBits x ++ nn) &&& (15#4 ++ 0#4 ++ 0#8) = c ++ 0#4 ++ 0#8
  rw [and_append, and_append, nibble_and_F, BitVec.and_zero, BitVec.and_zero]

theorem xnn_and_F0FF (c : Nibble) (x : Reg) (nn : Byte) : wordXNN c x nn &&& 0xF0FF = wordXNN c 0 nn := by
  show (c ++ regBits x ++ nn) &&& (15#4 ++ 0#4 ++ BitVec.allOnes 8) = c ++ 0#4 ++ nn
  rw [and_append, and_append, nibble_and_F, BitVec.and_zero, BitVec.and_allOnes]

theorem nnn_and_F000 (c : Nibble) (nnn : Addr) : wordNNN c nnn &&& 0xF000 = wordNNN c 0 := by
  show (c ++ nnn) &&& (15#4 ++ 0#12) = c ++ 0#12
  rw [and_append, nibble_and_F, BitVec.and_zero]

theorem cls : Statement .cls := fun strict =>
  ⟨⟨.CLS, 0xFFFF, 0x00E0⟩, by cases strict <;> decide, rfl, by decide⟩

theorem ret : Statement .ret := fun strict =>
  ⟨⟨.RET, 0xFFFF, 0x00EE⟩, by cases strict <;> decide, rfl, by decide⟩

theorem jp (nnn : Addr) : Statement (.jp nnn) := fun strict =>
  ⟨⟨.JP, 0xF000, 0x1000⟩, by cases strict <;> decide, rfl, by rw [OpcodeRow.selects, encode, nnn_and_F000]; decide⟩

theorem call (nnn : Addr) : Statement (.call nnn) := fun strict =>
  ⟨⟨.CALL, 0xF000, 0x2000⟩, by cases strict <;> decide, rfl, by rw [OpcodeRow.selects, encode, nnn_and_F000]; decide⟩

theorem seImm (x : Reg) (nn : Byte) : Statement (.seImm x nn) := fun strict =>
  ⟨⟨.SE_IMM, 0xF000, 0x3000⟩, by cases strict <;> decide, rfl, by rw [OpcodeRow.selects, encode, xnn_and_F000]; decide⟩

theorem sneImm (x : Reg) (nn : Byte) : Statement (.sneImm x nn) := fun strict =>
  ⟨⟨.SNE_IMM, 0xF000, 0x4000⟩, by cases strict <;> decide, rfl, by rw [OpcodeRow.selects, encode, xnn_and_F000]; decide⟩

theorem seReg (x : Reg) (y : Reg) : Statement (.seReg x y)
  | true => ⟨⟨.SE_REG, 0xF00F, 0x5000⟩, by decide, rfl, by rw [OpcodeRow.selects, encode, xyn_and_F00F]; decide⟩
  | false => ⟨⟨.SE_REG, 0xF000, 0x5000⟩, by decide, rfl, by rw [OpcodeRow.selects, encode, xyn_and_F000]; decide⟩

theorem ldImm (x : Reg) (nn : Byte) : Statement (.ldImm x nn) := fun strict =>
  ⟨⟨.LD_IMM, 0xF000, 0x6000⟩, by cases strict <;> decide, rfl, by rw [OpcodeRow.selects, encode, xnn_and_F000]; decide⟩

theorem addImm (x : Reg) (nn : Byte) : Statement (.addImm x nn) := fun strict =>
  ⟨⟨.ADD_IMM, 0xF000, 0x7000⟩, by cases strict <;> decide, rfl, by rw [OpcodeRow.selects, encode, xnn_and_F000]; decide⟩

theorem ldReg (x : Reg) (y : Reg) : Statement (.ldReg x y) := fun strict =>
  ⟨⟨.LD_REG, 0xF00F, 0x8000⟩, by cases strict <;> decide, rfl, by rw [OpcodeRow.selects, encode, xyn_and_F00F]; decide⟩

theorem or (x : Reg) (y : Reg) : Statement (.or x y) := fun strict =>
  ⟨⟨.OR, 0xF00F, 0x8001⟩, by cases strict <;> decide, rfl, by rw [OpcodeRow.selects, encode, xyn_and_F00F]; decide⟩

theorem and (x : Reg) (y : Reg) : Statement (.and x y) := fun strict =>
  ⟨⟨.AND, 0xF00F, 0x8002⟩, by cases strict <;> decide, rfl, by rw [OpcodeRow.selects, encode, xyn_and_F00F]; decide⟩

theorem xor (x : Reg) (y : Reg) : Statement (.xor x y) := fun strict =>
  ⟨⟨.XOR, 0xF00F, 0x8003⟩, by cases strict <;> decide, rfl, by rw [OpcodeRow.selects, encode, xyn_and_F00F]; decide⟩

theorem addReg (x : Reg) (y : Reg) : Statement (.addReg x y) := fun strict =>
  ⟨⟨.ADD_REG, 0xF00F, 0x8004⟩, by cases strict <;> decide, rfl, by rw [OpcodeRow.selects, encode, xyn_and_F00F]; decide⟩

theorem sub (x : Reg) (y : Reg) : Statement (.sub x y) := fun strict =>
  ⟨⟨.SUB, 0xF00F, 0x8005⟩, by cases strict <;> decide, rfl, by rw [OpcodeRow.selects, encode, xyn_and_F00F]; decide⟩

theorem shr (x : Reg) (y : Reg) : Statement (.shr x y) := fun strict =>
  ⟨⟨.SHR, 0xF00F, 0x8006⟩, by cases strict <;> decide, rfl, by rw [OpcodeRow.selects, encode, xyn_and_F00F]; decide⟩

theorem subn (x : Reg) (y : Reg) : Statement (.subn x y) := fun strict =>
  ⟨⟨.SUBN, 0xF00F, 0x8007⟩, by cases strict <;> decide, rfl, by rw [OpcodeRow.selects, encode, xyn_and_F00F]; decide⟩

theorem shl (x : Reg) (y : Reg) : Statement (.shl x y) := fun strict =>
  ⟨⟨.SHL, 0xF00F, 0x800E⟩, by cases strict <;> decide, rfl, by rw [OpcodeRow.selects, encode, xyn_and_F00F]; decide⟩

theorem sneReg (x : Reg) (y : Reg) : Statement (.sneReg x y)
  | true => ⟨⟨.SNE_REG, 0xF00F, 0x9000⟩, by decide, rfl, by rw [OpcodeRow.selects, encode, xyn_and_F00F]; decide⟩
  | false => ⟨⟨.SNE_REG, 0xF000, 0x9000⟩, by decide, rfl, by rw [OpcodeRow.selects, encode, xyn_and_F000]; decide⟩

theorem ldI (nnn : Addr) : Statement (.ldI nnn) := fun strict =>
  ⟨⟨.LD_I, 0xF000, 0xA000⟩, by cases strict <;> decide, rfl, by rw [OpcodeRow.selects, encode, nnn_and_F000]; decide⟩

theorem drw (x : Reg) (y : Reg) (n : Nibble) : Statement (.drw x y n) := fun strict =>
  ⟨⟨.DRW, 0xF000, 0xD000⟩, by cases strict <;> decide, rfl, by rw [OpcodeRow.selects, encode, xyn_and_F000]; decide⟩

theorem addI (x : Reg) : Statement (.addI x) := fun strict =>
  ⟨⟨.ADD_I, 0xF0FF, 0xF01E⟩, by cases strict <;> decide, rfl, by rw [OpcodeRow.selects, encode, xnn_and_F0FF]; decide⟩

theorem bcd (x : Reg) : Statement (.bcd x) := fun strict =>
  ⟨⟨.BCD, 0xF0FF, 0xF033⟩, by cases strict <;> decide, rfl, by rw [OpcodeRow.selects, encode, xnn_and_F0FF]; decide⟩

theorem stRegs (x : Reg) : Statement (.stRegs x) := fun strict =>
  ⟨⟨.ST_REGS, 0xF0FF, 0xF055⟩, by cases strict <;> decide, rfl, by rw [OpcodeRow.selects, encode, xnn_and_F0FF]; decide⟩

theorem ldRegs (x : Reg) : Statement (.ldRegs x) := fun strict =>
  ⟨⟨.LD_REGS, 0xF0FF, 0xF065⟩, by cases strict <;> decide, rfl, by rw [OpcodeRow.selects, encode, xnn_and_F0FF]; decide⟩

end Sys2Proof.Laws.EncodingRow
end

