-- ==== Sys2Proof/Laws/Sprite.lean ====
section
/-! SUPPORT. What a sprite row and a whole sprite can do to the pixels and to the collision flag (44_display.md R131). -/

namespace Sys2Proof.Machine

/-- The bit of one sprite row's first `n` columns that lands on pixel (px, py). -/
def spriteRowBit (row : Byte) (x0 y0 n px py : Nat) : Bool :=
  (List.range n).any fun c => row.getLsbD (7 - c) && decide ((x0 + c) % fbWidth = px) && decide (y0 % fbHeight = py)

theorem any_range_succ (n : Nat) (f : Nat → Bool) : (List.range (n + 1)).any f = ((List.range n).any f || f n) := by
  simp [List.range_succ]

theorem spriteRowBit_succ (row x0 y0 n px py) : spriteRowBit row x0 y0 (n + 1) px py = (spriteRowBit row x0 y0 n px py || (row.getLsbD (7 - n) && decide ((x0 + n) % fbWidth = px) && decide (y0 % fbHeight = py))) := by
  simp only [spriteRowBit, any_range_succ]

theorem spriteRowBit_false (row x0 y0 n px py) (h : ∀ c < n, (x0 + c) % fbWidth ≠ px ∨ y0 % fbHeight ≠ py) : spriteRowBit row x0 y0 n px py = false := by
  simp only [spriteRowBit, List.any_eq_false, List.mem_range]
  intro c hc; rcases h c hc with h | h <;> simp [h]

/-- What the first `n` columns of a row can do: XOR on the pixels, a collision where a lit pixel meets a 1 bit. -/
theorem Canvas.putRow_spec (k : Canvas) (x y : Nat) (row : Byte) (n : Nat) (hn : n ≤ 8) :
    (∀ px py, px < fbWidth → py < fbHeight → (k.putRow x y row n).1.pixel px py = (k.1.pixel px py ^^ spriteRowBit row x y n px py)) ∧
    ((k.putRow x y row n).2 = true ↔ k.2 = true ∨ ∃ px py, px < fbWidth ∧ py < fbHeight ∧ k.1.pixel px py = true ∧ spriteRowBit row x y n px py = true) := by
  induction n with
  | zero => simp [Canvas.putRow, spriteRowBit]
  | succ n ih =>
    obtain ⟨ihp, ihc⟩ := ih (by omega)
    have hnew : ∀ px py, px < fbWidth → py < fbHeight → (x + n) % fbWidth = px → y % fbHeight = py → spriteRowBit row x y n px py = false := by
      intro px py _ _ h1 h2
      apply spriteRowBit_false
      intro c hc; left; simp only [fbWidth] at *; omega
    constructor
    · intro px py hx hy
      rw [Canvas.putRow, Canvas.put_pixel, ihp px py hx hy, spriteRowBit_succ, Nat.mod_eq_of_lt hx, Nat.mod_eq_of_lt hy]
      by_cases h1 : (x + n) % fbWidth = px
      · by_cases h2 : y % fbHeight = py
        · rw [hnew px py hx hy h1 h2]; simp [h1, h2]
        · simp [h2]
      · simp [h1]
    · rw [Canvas.putRow, Canvas.put_collision, Bool.or_eq_true, ihc, Bool.and_eq_true]
      have hm : ∀ (fb : FrameBuffer) (a b : Nat), fb.pixel a b = fb.pixel (a % fbWidth) (b % fbHeight) := by
        intro fb a b; simp [FrameBuffer.pixel]
      have hxl : (x + n) % fbWidth < fbWidth := Nat.mod_lt _ (by decide)
      have hyl : y % fbHeight < fbHeight := Nat.mod_lt _ (by decide)
      rw [hm _ (x+n) y, ihp _ _ hxl hyl, hnew _ _ hxl hyl rfl rfl, Bool.xor_false]
      constructor
      · rintro ((h | ⟨px, py, h1, h2, h3, h4⟩) | ⟨h1, h2⟩)
        · exact .inl h
        · exact .inr ⟨px, py, h1, h2, h3, by rw [spriteRowBit_succ, h4]; rfl⟩
        · exact .inr ⟨_, _, hxl, hyl, h2, by rw [spriteRowBit_succ]; simp [h1]⟩
      · rintro (h | ⟨px, py, h1, h2, h3, h4⟩)
        · exact .inl (.inl h)
        · rw [spriteRowBit_succ, Bool.or_eq_true] at h4
          rcases h4 with h4 | h4
          · exact .inl (.inr ⟨px, py, h1, h2, h3, h4⟩)
          · simp only [Bool.and_eq_true, decide_eq_true_eq] at h4
            obtain ⟨⟨h5, h6⟩, h7⟩ := h4
            subst h6; subst h7
            exact .inr ⟨h5, h3⟩

theorem spriteBitAt_succ (m addr n x0 y0 px py) : spriteBitAt m addr (n + 1) x0 y0 px py = (spriteBitAt m addr n x0 y0 px py || spriteRowBit (m.read (addr+n)) x0 (y0+n) 8 px py) := by
  unfold spriteBitAt; rw [any_range_succ]; rfl

theorem spriteBitAt_row (m addr n x0 y0 px py) (h : spriteBitAt m addr n x0 y0 px py = true) : ∃ r < n, (y0 + r) % fbHeight = py := by
  simp only [spriteBitAt, List.any_eq_true, List.mem_range, Bool.and_eq_true, decide_eq_true_eq] at h
  obtain ⟨r, hr, c, hc, h⟩ := h
  exact ⟨r, hr, h.2⟩
theorem spriteRowBit_row (row x0 y0 n px py) (h : spriteRowBit row x0 y0 n px py = true) : y0 % fbHeight = py := by
  simp only [spriteRowBit, List.any_eq_true, List.mem_range, Bool.and_eq_true, decide_eq_true_eq] at h
  obtain ⟨c, hc, h⟩ := h
  exact h.2

/-- What a sprite of at most 32 rows can do: XOR on the pixels, a collision where a lit pixel meets a 1 bit. -/
theorem Canvas.putSprite_spec (k : Canvas) (m : Memory) (addr x y n : Nat) (hn : n ≤ 32) :
    (∀ px py, px < fbWidth → py < fbHeight → (k.putSprite m addr x y n).1.pixel px py = (k.1.pixel px py ^^ spriteBitAt m addr n x y px py)) ∧
    ((k.putSprite m addr x y n).2 = true ↔ k.2 = true ∨ ∃ px py, px < fbWidth ∧ py < fbHeight ∧ k.1.pixel px py = true ∧ spriteBitAt m addr n x y px py = true) := by
  induction n with
  | zero => simp [Canvas.putSprite, spriteBitAt]
  | succ n ih =>
    obtain ⟨ihp, ihc⟩ := ih (by omega)
    obtain ⟨rp, rc⟩ := Canvas.putRow_spec (k.putSprite m addr x y n) x (y+n) (m.read (addr+n)) 8 le_rfl
    have hdis : ∀ px py, spriteRowBit (m.read (addr+n)) x (y+n) 8 px py = true → spriteBitAt m addr n x y px py = false := by
      intro px py h
      by_contra h'
      obtain ⟨r, hr, e⟩ := spriteBitAt_row _ _ _ _ _ _ _ (by simpa using h')
      have := spriteRowBit_row _ _ _ _ _ _ h
      simp only [fbHeight] at *; omega
    constructor
    · intro px py hx hy
      rw [Canvas.putSprite, rp px py hx hy, ihp px py hx hy, spriteBitAt_succ]
      cases h : spriteRowBit (m.read (addr+n)) x (y+n) 8 px py
      · simp
      · rw [hdis _ _ h]; simp
    · rw [Canvas.putSprite, rc, ihc]
      constructor
      · rintro ((h | ⟨px, py, h1, h2, h3, h4⟩) | ⟨px, py, h1, h2, h3, h4⟩)
        · exact .inl h
        · exact .inr ⟨px, py, h1, h2, h3, by rw [spriteBitAt_succ, h4]; rfl⟩
        · rw [ihp px py h1 h2, hdis _ _ h4, Bool.xor_false] at h3
          exact .inr ⟨px, py, h1, h2, h3, by rw [spriteBitAt_succ, h4]; simp⟩
      · rintro (h | ⟨px, py, h1, h2, h3, h4⟩)
        · exact .inl (.inl h)
        · rw [spriteBitAt_succ, Bool.or_eq_true] at h4
          rcases h4 with h4 | h4
          · exact .inl (.inr ⟨px, py, h1, h2, h3, h4⟩)
          · exact .inr ⟨px, py, h1, h2, by rw [ihp px py h1 h2, hdis _ _ h4, h3]; rfl, h4⟩

end Sys2Proof.Machine
end

