-- ==== Sys2Proof/Tests/Slice0.lean ====
section
/-! SUPPORT. Tests. Expected values are those of 95_test_vectors.md, whose row is named in each docstring, or of the rule named
there. The witnesses at the end show, for every statement that has hypotheses, states and operands that meet them. -/

namespace Sys2Proof.Tests

open Sys2Proof.Machine

/-! ## Helpers: small states, and one step on them -/

/-- The reset state with some V registers set. -/
def regs (l : List (Reg × Byte)) : State := l.foldl (fun s p => s.writeV p.1 p.2) State.reset

/-- A state with some pixels lit. -/
def lit (s : State) (ps : List (Nat × Nat)) : State := { s with fb := ps.foldl (fun fb p => fb.flip p.1 p.2) s.fb }

/-- The reset state with a stack depth; entry k holds 0x0300 + k. -/
def depth (n : Fin 17) : State := { State.reset with sp := n, stack := Vector.ofFn fun k => 0x0300 + BitVec.ofNat 16 k.val }

/-- The state after one step that fetches `w`. -/
def after (s : State) (w : Nat) : State :=
  match step (s.withFetchWord 16 w) with
  | .next t => t
  | .fault _ => s
  | .refused _ => s

/-- The same at another configuration. -/
def afterWith (cfg : Config) (s : State) (w : Nat) : State :=
  match stepWith cfg (s.withFetchWord 16 w) with
  | .next t => t
  | .fault _ => s
  | .refused _ => s

/-- The result of one step that fetches `w`. -/
def result (s : State) (w : Nat) : Option StepResult :=
  match stepOp Config.default (s.withFetchWord 16 w) with
  | .next u => some u.2
  | .fault _ => none
  | .refused _ => none

/-- V registers after one step. -/
def vAfter (s : State) (w : Nat) (rs : List Reg) : List Byte := rs.map (after s w).readV

/-- `n` bytes of memory after one step. -/
def memAfter (s : State) (w addr n : Nat) : List Byte := (List.range n).map fun k => (after s w).readMem (addr + k)

/-- The lit pixels of a state, row by row. -/
def lights (s : State) : List (Nat × Nat) :=
  (List.range fbHeight).flatMap fun y => ((List.range fbWidth).filter fun x => s.fb.pixel x y).map fun x => (x, y)

/-- `SHIFT_USES_VY` false. -/
def shiftInPlace : Config := { Config.default with shiftUsesVy := false }

/-- `STRICT_SKIP_DECODE` false. -/
def loose : Config := { Config.default with strictSkipDecode := false }

/-- A machine stopped by an illegal word at 0x0200. -/
def stopped : State := { State.reset with pc := 0x0202, fault := ⟨.unknownOpcode, 0x0200, 0x0000⟩ }

/-! ## Decoding: one word of every row, written out digit by digit from its pattern (30_encoding.md R63) -/

/-- `00E0`. -/
theorem test_decode_cls : decode 0x00E0 = .ok (.cls) ∧ encode (.cls) = 0x00E0 := by decide

/-- `00EE`. -/
theorem test_decode_ret : decode 0x00EE = .ok (.ret) ∧ encode (.ret) = 0x00EE := by decide

/-- `1NNN`. -/
theorem test_decode_jp : decode 0x1ABC = .ok (.jp 0xABC) ∧ encode (.jp 0xABC) = 0x1ABC := by decide

/-- `2NNN`; field extraction of section 2.6. -/
theorem test_decode_call : decode 0x2F0E = .ok (.call 0xF0E) ∧ encode (.call 0xF0E) = 0x2F0E := by decide

/-- `3XNN`; section 2.6. -/
theorem test_decode_seImm : decode 0x3C42 = .ok (.seImm 0xC 0x42) ∧ encode (.seImm 0xC 0x42) = 0x3C42 := by decide

/-- `4XNN`. -/
theorem test_decode_sneImm : decode 0x4A15 = .ok (.sneImm 0xA 0x15) ∧ encode (.sneImm 0xA 0x15) = 0x4A15 := by decide

/-- `5XY0`. -/
theorem test_decode_seReg : decode 0x5120 = .ok (.seReg 1 2) ∧ encode (.seReg 1 2) = 0x5120 := by decide

/-- `6XNN`. -/
theorem test_decode_ldImm : decode 0x6A05 = .ok (.ldImm 0xA 0x05) ∧ encode (.ldImm 0xA 0x05) = 0x6A05 := by decide

/-- `7XNN`. -/
theorem test_decode_addImm : decode 0x70FF = .ok (.addImm 0 0xFF) ∧ encode (.addImm 0 0xFF) = 0x70FF := by decide

/-- `8XY0`. -/
theorem test_decode_ldReg : decode 0x8120 = .ok (.ldReg 1 2) ∧ encode (.ldReg 1 2) = 0x8120 := by decide

/-- `8XY1`. -/
theorem test_decode_or : decode 0x8121 = .ok (.or 1 2) ∧ encode (.or 1 2) = 0x8121 := by decide

/-- `8XY2`. -/
theorem test_decode_and : decode 0x8342 = .ok (.and 3 4) ∧ encode (.and 3 4) = 0x8342 := by decide

/-- `8XY3`. -/
theorem test_decode_xor : decode 0x8563 = .ok (.xor 5 6) ∧ encode (.xor 5 6) = 0x8563 := by decide

/-- `8XY4`; section 2.6. -/
theorem test_decode_addReg : decode 0x8AB4 = .ok (.addReg 0xA 0xB) ∧ encode (.addReg 0xA 0xB) = 0x8AB4 := by decide

/-- `8XY5`. -/
theorem test_decode_sub : decode 0x8785 = .ok (.sub 7 8) ∧ encode (.sub 7 8) = 0x8785 := by decide

/-- `8XY6`. -/
theorem test_decode_shr : decode 0x89A6 = .ok (.shr 9 0xA) ∧ encode (.shr 9 0xA) = 0x89A6 := by decide

/-- `8XY7`. -/
theorem test_decode_subn : decode 0x8BC7 = .ok (.subn 0xB 0xC) ∧ encode (.subn 0xB 0xC) = 0x8BC7 := by decide

/-- `8XYE`. -/
theorem test_decode_shl : decode 0x8DEE = .ok (.shl 0xD 0xE) ∧ encode (.shl 0xD 0xE) = 0x8DEE := by decide

/-- `9XY0`. -/
theorem test_decode_sneReg : decode 0x9120 = .ok (.sneReg 1 2) ∧ encode (.sneReg 1 2) = 0x9120 := by decide

/-- `ANNN`. -/
theorem test_decode_ldI : decode 0xA123 = .ok (.ldI 0x123) ∧ encode (.ldI 0x123) = 0xA123 := by decide

/-- `DXYN`; section 2.6. -/
theorem test_decode_drw : decode 0xD5A7 = .ok (.drw 5 0xA 7) ∧ encode (.drw 5 0xA 7) = 0xD5A7 := by decide

/-- `FX1E`. -/
theorem test_decode_addI : decode 0xFF1E = .ok (.addI 0xF) ∧ encode (.addI 0xF) = 0xFF1E := by decide

/-- `FX33`. -/
theorem test_decode_bcd : decode 0xF333 = .ok (.bcd 3) ∧ encode (.bcd 3) = 0xF333 := by decide

/-- `FX55`. -/
theorem test_decode_stRegs : decode 0xF255 = .ok (.stRegs 2) ∧ encode (.stRegs 2) = 0xF255 := by decide

/-- `FX65`. -/
theorem test_decode_ldRegs : decode 0xF165 = .ok (.ldRegs 1) ∧ encode (.ldRegs 1) = 0xF165 := by decide

/-! ## Ill-formed terms, refused -/

/-- Words of section 2.6 that no row selects: `wordLegal` refuses each, and so does the decoder. -/
theorem test_illegal_words_class0_5_8_9 :
    ([0x0000, 0x00E1, 0x00EF, 0x00FE, 0x0123, 0x5121, 0x9001, 0x8008, 0x800F, 0x812D] : List Word).all
      (fun w => wordLegal true w == false && !(decodeWith true w).isOk) = true := by decide

/-- Words of section 2.6, classes B, C, E and F. -/
theorem test_illegal_words_classB_C_E_F :
    ([0xB123, 0xC0FF, 0xE09E, 0xE0A1, 0xF007, 0xF00A, 0xF015, 0xF018, 0xF029, 0xF075, 0xF01F, 0xFF66] : List Word).all
      (fun w => wordLegal true w == false && !(decodeWith true w).isOk) = true := by decide

/-- R68: 5121 and 9001 are legal when `STRICT_SKIP_DECODE` is false; B123 is not. -/
theorem test_loose_words : wordLegal false 0x5121 = true ∧ wordLegal false 0x9001 = true ∧ wordLegal false 0xB123 = false := by decide

/-- Fewer than two bytes are no instruction (R60). -/
theorem test_truncated : decodeBytes true [0x12] = .error .truncated ∧ decodeBytes true [] = .error .truncated := by decide

/-- R72, class by class on small ranges: 9 of 16 words 8120 to 812F, 4 of 256 words F000 to F0FF, 2 of 256 words 0000 to 00FF. -/
theorem test_legal_counts :
    (List.range 16).countP (fun k => wordLegal true (BitVec.ofNat 16 (0x8120 + k))) = 9 ∧
    (List.range 256).countP (fun k => wordLegal true (BitVec.ofNat 16 (0xF000 + k))) = 4 ∧
    (List.range 256).countP (fun k => wordLegal true (BitVec.ofNat 16 k)) = 2 := by decide +kernel

/-- Assembler lines R74 does not allow: an address of 13 bits, a register 16, an immediate 256, a row count 16, a data byte 256,
an operand shape of no row. -/
theorem test_ill_formed_asm :
    ([.op .JP [.num 0x1000], .op .CALL [.num 0x1000], .op .SE [.v 16, .num 0], .op .SNE [.v 0, .num 256],
      .op .DRW [.v 0, .v 1, .num 16], .op .ADD [.i, .v 16]] : List AsmLine).all (fun l => !l.wellFormed && l.assemble.isNone) = true ∧
    ([.db 256, .op .CLS [.v 0], .op .LD [.i, .v 0], .op .LD [.num 1], .op .SHR [.v 1, .num 2], .op .LD [.b, .v 16]] :
      List AsmLine).all (fun l => !l.wellFormed && l.assemble.isNone) = true := by decide

/-- Memories that are not in canonical form: out of order, an address twice, an address beyond 0xFFF, a cell that holds what the
unlisted address reads as anyway. -/
theorem test_ill_formed_memory :
    ¬ Memory.wf [(2, 1), (1, 1)] ∧ ¬ Memory.wf [(1, 1), (1, 2)] ∧ ¬ Memory.wf [(4096, 1)] ∧ ¬ Memory.wf [(1, 0)] ∧
    ¬ Memory.wf [(0x050, 0xF0)] ∧ Memory.wf [(1, 1), (2, 1), (4095, 1)] := by decide

/-- A fault latch that does not tell the truth: a context without a kind, a legal word called unknown, an overflow at depth 15. -/
theorem test_ill_formed_fault :
    ¬ ({ State.reset with fault := ⟨.none, 0x0200, 0⟩ } : State).faultTruthful true ∧
    ¬ ({ State.reset with fault := ⟨.romTooLarge, 0, 1⟩ } : State).faultTruthful true ∧
    ¬ ({ (State.reset.placeWord 0x00E0) with pc := 0x0202, fault := ⟨.unknownOpcode, 0x0200, 0x00E0⟩ } : State).faultTruthful true ∧
    ¬ ({ ((depth 15).placeWord 0x2300) with pc := 0x0202, fault := ⟨.stackOverflow, 0x0200, 0x2300⟩ } : State).faultTruthful true := by
  refine ⟨fun h => absurd h.1 (by decide), fun h => absurd h.2 (by decide), fun h => absurd h.2.2 (by decide),
    fun h => absurd h.2.2.2 (by decide)⟩

/-! ## Assembler form (R74) -/

/-- Lines and their text and bytes, from the operand shapes of R74. -/
theorem test_assembler :
    (AsmLine.op .LD [.v 0xA, .num 5]).assemble = some [0x6A, 0x05] ∧ (AsmLine.op .LD [.atI, .v 2]).assemble = some [0xF2, 0x55] ∧
    (AsmLine.op .DRW [.v 5, .v 0xA, .num 7]).assemble = some [0xD5, 0xA7] ∧ (AsmLine.db 0x80).assemble = some [0x80] := by decide

/-- The text of a line. -/
theorem test_assembler_text :
    (AsmLine.op .LD [.v 10, .atI]).text = "LD VA, [I]" ∧ (AsmLine.op .CLS []).text = "CLS" ∧ (AsmLine.db 7).text = "DB 7" := by
  decide +kernel

/-! ## Register and arithmetic instructions (section 2.1) -/

/-- A1. -/
theorem test_ldImm :
    vAfter State.reset 0x6A05 [0xA, 0xF] = [0x05, 0x00] ∧ (after State.reset 0x6A05).pc = 0x0202 := by decide

/-- A3. -/
theorem test_addImm_wraps :
    vAfter (regs [(0, 0x02)]) 0x70FF [0, 0xF] = [0x01, 0x00] := by decide

/-- A4: VF as a plain destination. -/
theorem test_addImm_vf :
    vAfter (regs [(0xF, 0xFF)]) 0x7F01 [0xF] = [0x00] := by decide

/-- A5. -/
theorem test_ldReg :
    vAfter (regs [(1, 0x11), (2, 0x22)]) 0x8120 [1, 2] = [0x22, 0x22] := by decide

/-- A6. -/
theorem test_or :
    vAfter (regs [(1, 0x0F), (2, 0xF0), (0xF, 0x07)]) 0x8121 [1, 0xF] = [0xFF, 0x07] := by decide

/-- A7. -/
theorem test_and :
    vAfter (regs [(1, 0x3C), (2, 0x0F), (0xF, 0x07)]) 0x8122 [1, 0xF] = [0x0C, 0x07] := by decide

/-- A8. -/
theorem test_xor :
    vAfter (regs [(1, 0xFF), (2, 0x0F), (0xF, 0x07)]) 0x8123 [1, 0xF] = [0xF0, 0x07] := by decide

/-- A9. -/
theorem test_xor_self :
    vAfter (regs [(1, 0x5A)]) 0x8113 [1] = [0x00] := by decide

/-- B1, B2, B3. -/
theorem test_addReg :
    vAfter (regs [(1, 0xFF), (2, 0x01)]) 0x8124 [1, 0xF] = [0x00, 0x01] ∧
    vAfter (regs [(1, 0xFE), (2, 0x01), (0xF, 0x01)]) 0x8124 [1, 0xF] = [0xFF, 0x00] ∧
    vAfter (regs [(1, 0x80), (2, 0x80)]) 0x8124 [1, 0xF] = [0x00, 0x01] := by decide

/-- B5, B8, B6, B7: VF as an operand. -/
theorem test_addReg_vf :
    vAfter (regs [(0xF, 0xFF), (1, 0x02)]) 0x8F14 [0xF] = [0x01] ∧
    vAfter (regs [(0xF, 0x01), (1, 0x02)]) 0x8F14 [0xF] = [0x00] ∧
    vAfter (regs [(1, 0xFF), (0xF, 0x01)]) 0x81F4 [1, 0xF] = [0x00, 0x01] ∧ vAfter (regs [(0xF, 0x80)]) 0x8FF4 [0xF] = [0x01] := by decide

/-- C1, C2, C3, C4. -/
theorem test_sub :
    vAfter (regs [(1, 0x05), (2, 0x03)]) 0x8125 [1, 0xF] = [0x02, 0x01] ∧
    vAfter (regs [(1, 0x03), (2, 0x05)]) 0x8125 [1, 0xF] = [0xFE, 0x00] ∧
    vAfter (regs [(1, 0x07), (2, 0x07)]) 0x8125 [1, 0xF] = [0x00, 0x01] ∧
    vAfter (regs [(1, 0x00), (2, 0x01)]) 0x8125 [1, 0xF] = [0xFF, 0x00] := by decide

/-- C5, C6, C7, C8: VF as an operand. -/
theorem test_sub_vf :
    vAfter (regs [(0xF, 0x05), (1, 0x03)]) 0x8F15 [0xF] = [0x01] ∧ vAfter (regs [(0xF, 0x03), (1, 0x05)]) 0x8F15 [0xF] = [0x00] ∧
    vAfter (regs [(1, 0x05), (0xF, 0x01)]) 0x81F5 [1, 0xF] = [0x04, 0x01] ∧
    vAfter (regs [(1, 0x00), (0xF, 0x01)]) 0x81F5 [1, 0xF] = [0xFF, 0x00] := by decide

/-- D1, D2, D3. -/
theorem test_subn :
    vAfter (regs [(1, 0x03), (2, 0x05)]) 0x8127 [1, 0xF] = [0x02, 0x01] ∧
    vAfter (regs [(1, 0x05), (2, 0x03)]) 0x8127 [1, 0xF] = [0xFE, 0x00] ∧
    vAfter (regs [(1, 0x07), (2, 0x07)]) 0x8127 [1, 0xF] = [0x00, 0x01] := by decide

/-- D4, D5, D6: VF as an operand. -/
theorem test_subn_vf :
    vAfter (regs [(0xF, 0x03), (1, 0x05)]) 0x8F17 [0xF] = [0x01] ∧
    vAfter (regs [(1, 0x05), (0xF, 0x01)]) 0x81F7 [1, 0xF] = [0xFC, 0x00] ∧
    vAfter (regs [(1, 0x01), (0xF, 0x01)]) 0x81F7 [1, 0xF] = [0x00, 0x01] := by decide

/-- E1, E2, E5. -/
theorem test_shr :
    vAfter (regs [(1, 0xAA), (2, 0x05)]) 0x8126 [1, 2, 0xF] = [0x02, 0x05, 0x01] ∧
    vAfter (regs [(1, 0xAA), (2, 0xFE)]) 0x8126 [1, 0xF] = [0x7F, 0x00] ∧
    vAfter (regs [(1, 0xAA), (0xF, 0x03)]) 0x81F6 [1, 0xF] = [0x01, 0x01] := by decide

/-- E1n, E4n: `SHIFT_USES_VY` false. -/
theorem test_shr_in_place :
    ([1, 2, 0xF].map (afterWith shiftInPlace (regs [(1, 0xAA), (2, 0x05)]) 0x8126).readV) = [0x55, 0x05, 0x00] ∧
    (afterWith shiftInPlace (regs [(0xF, 0x03)]) 0x8F26).readV 0xF = 0x01 := by decide

/-- F1, F2, F5. -/
theorem test_shl :
    vAfter (regs [(1, 0x01), (2, 0x81)]) 0x812E [1, 2, 0xF] = [0x02, 0x81, 0x01] ∧
    vAfter (regs [(1, 0x01), (2, 0x7F)]) 0x812E [1, 0xF] = [0xFE, 0x00] ∧
    vAfter (regs [(1, 0x00), (0xF, 0x81)]) 0x81FE [1, 0xF] = [0x02, 0x01] := by decide

/-- F1n, F4n: `SHIFT_USES_VY` false. -/
theorem test_shl_in_place :
    ([1, 0xF].map (afterWith shiftInPlace (regs [(1, 0x81), (2, 0x01)]) 0x812E).readV) = [0x02, 0x01] ∧
    (afterWith shiftInPlace (regs [(0xF, 0x81)]) 0x8F2E).readV 0xF = 0x01 := by decide

/-! ## Control transfer (section 2.2) -/

/-- J1, J2. -/
theorem test_jp :
    (after State.reset 0x1ABC).pc = 0x0ABC ∧ (after State.reset 0x1201).pc = 0x0201 ∧ result State.reset 0x1ABC = some (.ok false) := by decide

/-- K1, K2, K4. -/
theorem test_call :
    (after State.reset 0x2ABC).stack[0] = 0x0202 ∧ (after State.reset 0x2ABC).sp = 1 ∧ (after State.reset 0x2ABC).pc = 0x0ABC ∧
    (after (depth 15) 0x2300).stack[15] = 0x0202 ∧ (after (depth 15) 0x2300).sp = 16 ∧
    (after (State.reset.setPc 0x0FFE) 0x2300).stack[0] = 0x1000 := by decide

/-- K3. -/
theorem test_call_overflow :
    result (depth 16) 0x2300 = some (.fatal ⟨.stackOverflow, 0x0200, 0x2300⟩) ∧ (after (depth 16) 0x2300).sp = 16 ∧
    (after (depth 16) 0x2300).pc = 0x0202 ∧ (after (depth 16) 0x2300).stack = (depth 16).stack ∧
    (after (depth 16) 0x2300).fault.kind.code = 3 := by decide

/-- K7. -/
theorem test_ret :
    (after (depth 16) 0x00EE).pc = 0x030F ∧ (after (depth 16) 0x00EE).sp = 15 := by decide

/-- K6. -/
theorem test_ret_underflow :
    (after (State.reset.setPc 0x0300) 0x00EE).fault = ⟨.stackUnderflow, 0x0300, 0x00EE⟩ ∧
    (after (State.reset.setPc 0x0300) 0x00EE).pc = 0x0302 ∧ (after (State.reset.setPc 0x0300) 0x00EE).sp = 0 := by decide

/-- S1, S2. -/
theorem test_seImm :
    (after (regs [(0xA, 0x15)]) 0x3A15).pc = 0x0204 ∧ (after (regs [(0xA, 0x16)]) 0x3A15).pc = 0x0202 := by decide

/-- S11: the skip wraps at 65536. -/
theorem test_seImm_wraps :
    (after (State.reset.setPc 0xFFFE) 0x3000).pc = 0x0002 := by decide

/-- S3, S4. -/
theorem test_sneImm :
    (after (regs [(0xA, 0x15)]) 0x4A15).pc = 0x0202 ∧ (after (regs [(0xA, 0x16)]) 0x4A15).pc = 0x0204 := by decide

/-- S5, S6, S7. -/
theorem test_seReg :
    (after (regs [(1, 7), (2, 7)]) 0x5120).pc = 0x0204 ∧ (after (regs [(1, 7), (2, 8)]) 0x5120).pc = 0x0202 ∧
    (after (regs [(1, 9)]) 0x5110).pc = 0x0204 := by decide

/-- The source's 0x5123 question (section 1, S9): illegal by default, a skip when `STRICT_SKIP_DECODE` is false. -/
theorem test_seReg_low_nibble :
    (after State.reset 0x5123).fault = ⟨.unknownOpcode, 0x0200, 0x5123⟩ ∧ (after State.reset 0x5123).pc = 0x0202 ∧
    (afterWith loose State.reset 0x5123).pc = 0x0204 ∧ (afterWith loose State.reset 0x5123).fault.kind = .none := by decide

/-- S8, S9, S10. -/
theorem test_sneReg :
    (after (regs [(1, 7), (2, 8)]) 0x9120).pc = 0x0204 ∧ (after (regs [(1, 7), (2, 7)]) 0x9120).pc = 0x0202 ∧
    (after (regs [(3, 1)]) 0x9330).pc = 0x0202 := by decide

/-! ## Index and memory (section 2.3) -/

/-- I1, I2. -/
theorem test_ldI :
    (after State.reset 0xA123).idx = 0x0123 ∧ (after State.reset 0xAFFF).idx = 0x0FFF := by decide

/-- I3, I4, I5. -/
theorem test_addI :
    (after ((regs [(0, 5)]).setIdx 0x0303) 0xF01E).idx = 0x0308 ∧ (after ((regs [(0, 1)]).setIdx 0x0FFF) 0xF01E).idx = 0x1000 ∧
    (after ((regs [(0, 1)]).setIdx 0xFFFF) 0xF01E).idx = 0x0000 := by decide

/-- I6: VF as the operand, and no flag. -/
theorem test_addI_vf :
    (after ((regs [(0xF, 0xFF)]).setIdx 0x0F80) 0xFF1E).idx = 0x107F ∧ vAfter ((regs [(0xF, 0xFF)]).setIdx 0x0F80) 0xFF1E [0xF] = [0xFF] := by decide

/-- M5, M6. -/
theorem test_bcd :
    memAfter ((regs [(3, 0xEA)]).setIdx 0x0400) 0xF333 0x400 3 = [2, 3, 4] ∧
    memAfter ((regs [(3, 0xFF)]).setIdx 0x0400) 0xF333 0x400 3 = [2, 5, 5] := by decide

/-- M7: the third digit goes to address 0. -/
theorem test_bcd_wraps :
    memAfter ((regs [(0, 0xFF)]).setIdx 0x0FFE) 0xF033 0xFFE 3 = [2, 5, 5] ∧
    (after ((regs [(0, 0xFF)]).setIdx 0x0FFE) 0xF033).mem.get 0 = 5 ∧ (after ((regs [(0, 0xFF)]).setIdx 0x0FFE) 0xF033).idx = 0x0FFE := by decide

/-- M8: V3 is not stored. -/
theorem test_stRegs :
    memAfter ((regs [(0, 0x11), (1, 0x22), (2, 0x33), (3, 0x44)]).setIdx 0x0400) 0xF255 0x400 4 = [0x11, 0x22, 0x33, 0x00] ∧
    (after ((regs [(0, 0x11), (1, 0x22), (2, 0x33), (3, 0x44)]).setIdx 0x0400) 0xF255).idx = 0x0403 := by decide

/-- M10: all sixteen, across the top of memory. -/
theorem test_stRegs_all :
    memAfter ((regs ((List.finRange 16).map fun i => (i, 0xA0 + BitVec.ofNat 8 i.val))).setIdx 0x0FF8) 0xFF55 0xFF8 16 =
      [0xA0, 0xA1, 0xA2, 0xA3, 0xA4, 0xA5, 0xA6, 0xA7, 0xA8, 0xA9, 0xAA, 0xAB, 0xAC, 0xAD, 0xAE, 0xAF] ∧
    (after ((regs ((List.finRange 16).map fun i => (i, 0xA0 + BitVec.ofNat 8 i.val))).setIdx 0x0FF8) 0xFF55).idx = 0x1008 := by decide +kernel

/-- M11, M13. -/
theorem test_ldRegs :
    vAfter (((regs [(3, 0x99)]).storeBytes 0x400 [1, 2, 3, 4]).setIdx 0x0400) 0xF265 [0, 1, 2, 3] = [1, 2, 3, 0x99] ∧
    vAfter (((State.reset.storeBytes 0xFFF [0x77, 0x88])).setIdx 0xFFFF) 0xF165 [0, 1] = [0x77, 0x88] ∧
    (after (((State.reset.storeBytes 0xFFF [0x77, 0x88])).setIdx 0xFFFF) 0xF165).idx = 0x0001 := by decide +kernel

/-- M12: the default glyph table, PRESUMED (notes/assumptions/2.md). -/
theorem test_ldRegs_font :
    vAfter (State.reset.setIdx 0x0050) 0xFF65 (List.finRange 16) =
      [0xF0, 0x90, 0x90, 0x90, 0xF0, 0x20, 0x60, 0x20, 0x20, 0x70, 0xF0, 0x10, 0xF0, 0x80, 0xF0, 0xF0] := by decide +kernel

/-! ## Display (section 2.4) -/

/-- G1. -/
theorem test_cls :
    lights (after (lit (regs [(0xF, 5)]) [(3, 3), (63, 31)]) 0x00E0) = [] ∧ vAfter (lit (regs [(0xF, 5)]) [(3, 3), (63, 31)]) 0x00E0 [0xF] = [5] ∧
    (after (lit (regs [(0xF, 5)]) [(3, 3), (63, 31)]) 0x00E0).redraw = true ∧ result State.reset 0x00E0 = some (.ok true) := by decide +kernel

/-- G9: XOR, and a collision in the second row only. -/
theorem test_drw :
    lights (after (lit ((State.reset.storeBytes 0x300 [0xC0, 0xC0]).setIdx 0x300) [(1, 1), (5, 5)]) 0xD012) = [(0, 0), (1, 0), (0, 1), (5, 5)] ∧
    vAfter (lit ((State.reset.storeBytes 0x300 [0xC0, 0xC0]).setIdx 0x300) [(1, 1), (5, 5)]) 0xD012 [0xF] = [1] := by decide +kernel

/-- G5: a row that runs past column 63; G7: no rows. -/
theorem test_drw_wraps :
    lights (after (((regs [(0, 0x3C)]).storeBytes 0x300 [0xFF]).setIdx 0x300) 0xD011) =
      [(0, 0), (1, 0), (2, 0), (3, 0), (60, 0), (61, 0), (62, 0), (63, 0)] ∧
    lights (after (((regs [(0xF, 9)]).storeBytes 0x300 [0xFF]).setIdx 0x300) 0xD010) = [] ∧
    vAfter (((regs [(0xF, 9)]).storeBytes 0x300 [0xFF]).setIdx 0x300) 0xD010 [0xF] = [0] ∧
    result (((regs [(0xF, 9)]).storeBytes 0x300 [0xFF]).setIdx 0x300) 0xD010 = some (.ok true) := by decide +kernel

/-! ## Timers, faults, reset (sections 2.5 to 2.7) -/

/-- T1, T3, T4. -/
theorem test_tick :
    (({ State.reset with dt := 2, st := 1 } : State).tick.dt = 1 ∧ ({ State.reset with dt := 2, st := 1 } : State).tick.st = 0) ∧
    (State.reset.tick.dt = 0 ∧ State.reset.tick.st = 0) ∧ ({ State.reset with dt := 0xFF } : State).tick.dt = 0xFE := by decide

/-- T6. -/
theorem test_tick_faulted :
    ({ stopped with dt := 5 } : State).tick.dt = 4 ∧ ({ stopped with dt := 5 } : State).tick.fault = stopped.fault := by decide

/-- Section 1, S3: REDRAW is read once. -/
theorem test_consumeRedraw :
    ({ State.reset with redraw := true } : State).consumeRedraw.2 = true ∧
    ({ State.reset with redraw := true } : State).consumeRedraw.1.consumeRedraw.2 = false := by decide

/-- Section 2.6: B123 fetched at 0x0200. -/
theorem test_illegal :
    result State.reset 0xB123 = some (.fatal ⟨.unknownOpcode, 0x0200, 0xB123⟩) ∧ (after State.reset 0xB123).pc = 0x0202 ∧
    (after State.reset 0xB123).v = State.reset.v := by decide

/-- P7 to P9: a step in the fault state changes nothing. -/
theorem test_faulted_step :
    step stopped = .next stopped ∧ stepOp Config.default stopped = .next (stopped, .fatal stopped.fault) := ⟨rfl, rfl⟩

/-- P13: an odd PC fetches the bytes at PC and PC + 1. -/
theorem test_odd_pc :
    ((State.reset.storeBytes 0x201 [0x12, 0x34]).setPc 0x0201).fetch = 0x1234 := by decide

/-- P13: the fetch at 0x0FFF reads Mem[FFF] and Mem[000], and the high bits of PC are ignored. -/
theorem test_fetch_wraps :
    ((State.reset.storeBytes 0xFFF [0x60, 0x07]).setPc 0x0FFF).fetch = 0x6007 ∧
    ((State.reset.storeBytes 0xFFF [0x60, 0x07]).setPc 0xFFFF).fetch = 0x6007 := by decide

/-- Z1: Reset with an empty ROM at the default configuration is `State.reset`. -/
theorem test_reset_empty :
    resetOp Config.default [] stopped = (State.reset, .ok) := by decide +kernel

/-- Z2. -/
theorem test_reset_one_byte :
    (resetOp Config.default [0xAA] stopped).1.readMem 0x200 = 0xAA ∧ (resetOp Config.default [0xAA] stopped).1.readMem 0x201 = 0 := by decide +kernel

/-- Z4. -/
theorem test_reset_too_large :
    (resetOp Config.default (List.replicate 3585 0x5A) State.reset).2 = .fatal ⟨.romTooLarge, 0, 0⟩ ∧
    (resetOp Config.default (List.replicate 3585 0x5A) State.reset).1.fault.kind.code = 1 := by decide +kernel

/-- Empty ROM (P9): the first step after Reset raises UnknownOpcode on the word 0000. -/
theorem test_first_step :
    step State.reset = .next { State.reset with pc := 0x0202, fault := ⟨.unknownOpcode, 0x0200, 0x0000⟩ } := rfl

/-- The core's step and reset are the model's. -/
theorem test_core :
    Sys2Proof.core.reset = State.reset ∧ Sys2Proof.core.step State.reset = step State.reset := ⟨rfl, rfl⟩

/-! ## Witnesses: for every statement with hypotheses, states and operands that meet them, each clause at its boundary -/

/-- A running state that fetches `w` at 0x0200. -/
def at0200 (w : Word) : State := State.reset.placeWord w

theorem test_witness_ReturnPopsIntoProgramCounter :
    0 < (depth 1).sp.val ∧ 0 < (depth 16).sp.val ∧ (depth 0).sp.val = 0 := by decide

/-- 1200 at 0x0200, a jump to itself. -/
theorem test_witness_JumpLoadsProgramCounter :
    (at0200 0x1200).fault.kind = .none ∧ (at0200 0x1200).fetch = BitVec.ofNat 16 (0x1000 + (0x200 : Addr).toNat) ∧
    (0x200 : Addr).toNat = (at0200 0x1200).pc.toNat := by decide

theorem test_witness_CallPushesAdvancedProgramCounter :
    (depth 0).sp.val < 16 ∧ (depth 15).sp.val < 16 ∧ (depth 16).sp.val = 16 := by decide

/-- Both skips by two registers: a low nibble that is not 0, at both ends. -/
theorem test_witness_SkipIfRegistersEqual : (0x1 : Nibble) ≠ 0 ∧ (0xF : Nibble) ≠ 0 := by decide

theorem test_witness_SkipIfRegistersDiffer : (0x1 : Nibble) ≠ 0 ∧ (0xF : Nibble) ≠ 0 := by decide

/-- The five instructions that write V[X] and VF: a destination that is not VF. -/
theorem test_witness_AddWithCarryFlag : (0 : Reg) ≠ flagReg ∧ (14 : Reg) ≠ flagReg := by decide

theorem test_witness_SubtractWithNoBorrowFlag : (0 : Reg) ≠ flagReg ∧ (14 : Reg) ≠ flagReg := by decide

theorem test_witness_ReverseSubtractWithNoBorrowFlag : (0 : Reg) ≠ flagReg ∧ (14 : Reg) ≠ flagReg := by decide

theorem test_witness_ShiftRightTakesItsOperandByParameter : (0 : Reg) ≠ flagReg ∧ (14 : Reg) ≠ flagReg := by decide

theorem test_witness_ShiftLeftTakesItsOperandByParameter : (0 : Reg) ≠ flagReg ∧ (14 : Reg) ≠ flagReg := by decide

/-- FX55 and FX65: a register up to X, X = 0 and X = 15. -/
theorem test_witness_StoreRegisters : (0 : Reg).val ≤ (0 : Reg).val ∧ (15 : Reg).val ≤ (15 : Reg).val := by decide

theorem test_witness_LoadRegisters : (0 : Reg).val ≤ (0 : Reg).val ∧ (15 : Reg).val ≤ (15 : Reg).val := by decide

/-- DXYN: the corner pixels. -/
theorem test_witness_DrawSprite : 0 < fbWidth ∧ 63 < fbWidth ∧ 0 < fbHeight ∧ 31 < fbHeight := by decide

/-- A one-row sprite at address 0x050 on an empty frame, drawn twice: both draws answer, and the first turns a pixel on. -/
def drawn : State := { State.reset with idx := 0x0050 }

theorem test_witness_DrawingTwiceRestoresTheFrame :
    (0 : Reg) ≠ flagReg ∧ (1 : Reg) ≠ flagReg ∧
    ∃ t u, exec (.drw 0 1 1) drawn = .next t ∧ exec (.drw 0 1 1) t = .next u ∧
      drawn.fb.pixel 0 0 = false ∧ t.fb.pixel 0 0 = true :=
  ⟨by decide, by decide, _, _, rfl, rfl, by decide, by decide⟩

theorem test_witness_EveryDecodedWordIsAnEncoding :
    decodeWith true 0x00E0 = .ok .cls ∧ decodeWith true 0x9120 = .ok (.sneReg 1 2) ∧ decodeWith true 0xFF65 = .ok (.ldRegs 0xF) := by
  decide

theorem test_witness_DecoderFollowsTheOpcodeMap :
    decodeWith true 0x8120 = .ok (.ldReg 1 2) ∧ decodeWith false 0x5121 = .ok (.seReg 1 2) ∧ decodeWith false 0xFF65 = .ok (.ldRegs 0xF) := by
  decide

theorem test_witness_LegalityByClass :
    (0x1000 : Word).toNat / 4096 ∈ [1, 2, 3, 4, 6, 7, 0xA, 0xD] ∧ (0xDFFF : Word).toNat / 4096 ∈ [1, 2, 3, 4, 6, 7, 0xA, 0xD] ∧
    (0xB000 : Word).toNat / 4096 ∈ [0xB, 0xC, 0xE] ∧ (0xEFFF : Word).toNat / 4096 ∈ [0xB, 0xC, 0xE] ∧
    (0x0000 : Word).toNat / 4096 = 0 ∧ (0x0FFF : Word).toNat / 4096 = 0 ∧ (0x8000 : Word).toNat / 4096 = 8 ∧
    (0x8FFF : Word).toNat / 4096 = 8 ∧ (0xF000 : Word).toNat / 4096 = 0xF ∧ (0xFFFF : Word).toNat / 4096 = 0xF ∧
    (0x5000 : Word).toNat / 4096 ∈ [5, 9] ∧ (0x9FFF : Word).toNat / 4096 ∈ [5, 9] := by decide

theorem test_witness_StepRunsTheDecodedInstruction :
    (at0200 0x6A05).fault.kind = .none ∧ decode (at0200 0x6A05).fetch = .ok (.ldImm 0xA 0x05) := by decide

/-- A word that decodes, one that does not, and a machine that has stopped, each with the word PC names. -/
theorem test_witness_StepFollowsTheCycle :
    ((0x6A05 : Word).toNat = ((at0200 0x6A05).readMem (at0200 0x6A05).pc.toNat).toNat * 256 +
      ((at0200 0x6A05).readMem ((at0200 0x6A05).pc.toNat + 1)).toNat ∧
      (at0200 0x6A05).fault.kind = .none ∧ decodeWith true 0x6A05 = .ok (.ldImm 0xA 0x05)) ∧
    ((0x0000 : Word).toNat = (State.reset.readMem State.reset.pc.toNat).toNat * 256 +
      (State.reset.readMem (State.reset.pc.toNat + 1)).toNat ∧
      State.reset.fault.kind = .none ∧ decodeWith true 0x0000 = .error .class0) ∧
    ((0x0000 : Word).toNat = (stopped.readMem stopped.pc.toNat).toNat * 256 +
      (stopped.readMem (stopped.pc.toNat + 1)).toNat ∧ stopped.fault.kind ≠ .none) := by decide

/-- In the cycle, an instruction that ends well and one that raises. -/
theorem test_witness_StepFollowsTheCycle_results :
    (∃ t, execWith Config.default (.ldImm 0xA 5) { at0200 0x6A05 with pc := (at0200 0x6A05).pc + 2 } = .next t ∧ t.fault.kind = .none) ∧
    ∃ t, execWith Config.default .ret { at0200 0x00EE with pc := (at0200 0x00EE).pc + 2 } = .next t ∧ t.fault.kind ≠ .none :=
  ⟨⟨_, rfl, rfl⟩, _, rfl, by decide⟩

theorem test_witness_ProgramCounterAfterEveryInstruction :
    (at0200 0x3000).fault.kind = .none ∧
    decodeWith Config.default.strictSkipDecode (at0200 0x3000).fetch = .ok (.seImm 0 0) ∧
    ∃ t, stepWith Config.default (at0200 0x3000) = .next t ∧ t.fault.kind = .none :=
  ⟨by decide, by decide, _, rfl, by decide⟩

/-- The same with an instruction that raises. -/
theorem test_witness_ProgramCounterAfterEveryInstruction_raised :
    (at0200 0x00EE).fault.kind = .none ∧ decodeWith Config.default.strictSkipDecode (at0200 0x00EE).fetch = .ok .ret ∧
    ∃ t, stepWith Config.default (at0200 0x00EE) = .next t ∧ t.fault.kind ≠ .none :=
  ⟨by decide, by decide, _, rfl, by decide⟩

theorem test_witness_IllegalWordRaisesUnknownOpcode :
    State.reset.fault.kind = .none ∧ wordLegal Config.default.strictSkipDecode State.reset.fetch = false ∧
    (at0200 0xFFFF).fault.kind = .none ∧ wordLegal Config.default.strictSkipDecode (at0200 0xFFFF).fetch = false := by decide

theorem test_witness_FaultsArePrecise :
    State.reset.fault.kind = .none ∧ ∃ t, stepWith Config.default State.reset = .next t ∧ t.fault.kind ≠ .none :=
  ⟨by decide, _, rfl, by decide⟩

theorem test_witness_FaultStateIsSticky : stopped.fault.kind ≠ .none := by decide

theorem test_witness_StackErrorsOfAStep :
    (((depth 16).placeWord 0x2FFF).fault.kind = .none ∧
      decodeWith Config.default.strictSkipDecode ((depth 16).placeWord 0x2FFF).fetch = .ok (.call 0xFFF) ∧
      ((depth 16).placeWord 0x2FFF).sp.val = 16) ∧
    (at0200 0x00EE).fault.kind = .none ∧ decodeWith Config.default.strictSkipDecode (at0200 0x00EE).fetch = .ok .ret ∧
      (at0200 0x00EE).sp.val = 0 := by decide

/-- A stopped machine, a Reset that succeeds and leaves the fault state, and one that fails. -/
theorem test_witness_OnlyResetLeavesTheFaultState :
    stopped.fault.kind ≠ .none ∧
    (∃ r t, hostMove Config.default stopped (.reset (List.replicate 3584 0)) r t ∧ t.fault.kind = .none ∧
      (List.replicate 3584 (0 : Byte)).length ≤ 3584) ∧
    (∃ r t, hostMove Config.default stopped (.reset (List.replicate 3585 0)) r t ∧ 3584 < (List.replicate 3585 (0 : Byte)).length) :=
  ⟨by decide, ⟨_, _, ⟨State.reset, by decide, rfl, rfl⟩, by decide +kernel, by decide +kernel⟩,
    ⟨_, _, ⟨State.reset, by decide, rfl, rfl⟩, by decide +kernel⟩⟩

/-- 2300 at 0x0200 and 00EE at 0x0300, at depths 0 and 15. -/
theorem test_witness_CallThenReturnComesBack :
    (((depth 0).placeWord 0x2300).storeBytes 0x300 [0x00, 0xEE]).fault.kind = .none ∧
    decode (((depth 0).placeWord 0x2300).storeBytes 0x300 [0x00, 0xEE]).fetch = .ok (.call 0x300) ∧
    (((depth 0).placeWord 0x2300).storeBytes 0x300 [0x00, 0xEE]).sp.val < 16 ∧
    (((depth 0).placeWord 0x2300).storeBytes 0x300 [0x00, 0xEE]).wordAt (0x300 : Addr).toNat = 0x00EE ∧
    decode (((depth 15).placeWord 0x2300).storeBytes 0x300 [0x00, 0xEE]).fetch = .ok (.call 0x300) ∧
    (((depth 15).placeWord 0x2300).storeBytes 0x300 [0x00, 0xEE]).sp.val < 16 ∧
    (((depth 15).placeWord 0x2300).storeBytes 0x300 [0x00, 0xEE]).wordAt (0x300 : Addr).toNat = 0x00EE := by decide +kernel

/-- 8124 on two register files that differ in V3, which it neither reads nor writes. -/
theorem test_witness_RegisterReadWriteTable :
    (∃ t, execWith Config.default (.addReg 1 2) (regs [(1, 0xFF), (2, 0x01)]) = .next t) ∧
    regs [(1, 0xFF), (2, 0x01), (3, 7)] = { regs [(1, 0xFF), (2, 0x01)] with v := (regs [(1, 0xFF), (2, 0x01), (3, 7)]).v } ∧
    (∀ r ∈ readRegs Config.default.shiftUsesVy (.addReg 1 2),
      (regs [(1, 0xFF), (2, 0x01), (3, 7)]).readV r = (regs [(1, 0xFF), (2, 0x01)]).readV r) ∧
    (3 : Reg) ∉ writtenRegs (.addReg 1 2) ∧ (15 : Reg) ∈ writtenRegs (.addReg 1 2) :=
  ⟨⟨_, rfl⟩, by decide, by decide, by decide, by decide⟩

/-- A flag writer, and an instruction that is none, on VF as its destination. -/
theorem test_witness_FlagWritersLeaveZeroOrOne :
    writesFlag (.drw 0 1 0) = true ∧ writesFlag (.addReg 15 15) = true ∧ writesFlag (.ldImm 15 7) = false ∧
    ∃ t, execWith Config.default (.ldImm 15 7) State.reset = .next t ∧ t.readV flagReg ≠ State.reset.readV flagReg :=
  ⟨rfl, rfl, rfl, _, rfl, by decide⟩

/-- FX65 on two memories that differ at 0x403, beyond the bytes F265 reads; FX33 stores across the top of memory. -/
theorem test_witness_MemoryAccessTable :
    (∃ t, execWith Config.default (.ldRegs 2) (State.reset.setIdx 0x0400) = .next t) ∧
    (State.reset.setIdx 0x0400).storeBytes 0x403 [4] =
      { State.reset.setIdx 0x0400 with mem := ((State.reset.setIdx 0x0400).storeBytes 0x403 [4]).mem } ∧
    (∀ a ∈ dataReads (State.reset.setIdx 0x0400) (.ldRegs 2),
      ((State.reset.setIdx 0x0400).storeBytes 0x403 [4]).readMem a = (State.reset.setIdx 0x0400).readMem a) ∧
    (0x403 < memSize ∧ 0x403 ∉ dataWrites (State.reset.setIdx 0x0400) (.ldRegs 2)) ∧
    0 ∈ dataWrites (State.reset.setIdx 0x0FFE) (.bcd 0) ∧ 1 ∉ dataWrites (State.reset.setIdx 0x0FFE) (.bcd 0) ∧
    ((State.reset.setIdx 0x0400).storeBytes 0x403 [4]).readMem (State.reset.setIdx 0x0400).pc.toNat =
      (State.reset.setIdx 0x0400).readMem (State.reset.setIdx 0x0400).pc.toNat ∧
    ((State.reset.setIdx 0x0400).storeBytes 0x403 [4]).readMem ((State.reset.setIdx 0x0400).pc.toNat + 1) =
      (State.reset.setIdx 0x0400).readMem ((State.reset.setIdx 0x0400).pc.toNat + 1) :=
  ⟨⟨_, rfl⟩, rfl, by decide, by decide, by decide, by decide, by decide, by decide⟩

/-- A step that touches the frame buffer, one that does not, and one that raises. -/
theorem test_witness_RedrawIsStickyUntilConsumed :
    (∃ t, stepOp Config.default (at0200 0x00E0) = .next (t, .ok true)) ∧
    (∃ t, stepOp Config.default (at0200 0x6A05) = .next (t, .ok false)) ∧
    ∃ t r, stepOp Config.default State.reset = .next (t, .fatal r) :=
  ⟨⟨_, rfl⟩, ⟨_, rfl⟩, _, _, rfl⟩

/-- I, the stack and the frame buffer do change. -/
theorem test_witness_WhoChangesIndexStackFrameAndTimers :
    (∃ t, execWith Config.default (.ldI 1) State.reset = .next t ∧ t.idx ≠ State.reset.idx) ∧
    (∃ t, execWith Config.default (.call 1) State.reset = .next t ∧ t.sp ≠ State.reset.sp ∧ t.stack ≠ State.reset.stack) ∧
    ∃ t, execWith Config.default .cls (lit State.reset [(63, 31)]) = .next t ∧ t.fb ≠ (lit State.reset [(63, 31)]).fb :=
  ⟨⟨_, rfl, by decide⟩, ⟨_, rfl, by decide, by decide⟩, _, rfl, by decide⟩

/-- F155 and F033 that store over the word after them: the next fetch lies in the stored bytes, at each place. -/
theorem test_witness_StoresAreSeenByTheNextFetch :
    ((State.setIdx (at0200 0xF155) 0x0202).fault.kind = .none ∧
      decode (State.setIdx (at0200 0xF155) 0x0202).fetch = .ok (.stRegs 1) ∧
      (0 : Reg).val + 1 = (1 : Reg).val ∧ (1 : Reg).val ≤ (1 : Reg).val ∧
      0x0202 % 4096 = ((State.setIdx (at0200 0xF155) 0x0202).dataAddress + (0 : Reg).val) % 4096) ∧
    ((State.setIdx (at0200 0xFF55) 0x0FFF).fault.kind = .none ∧
      decode (State.setIdx (at0200 0xFF55) 0x0FFF).fetch = .ok (.stRegs 15) ∧
      (14 : Reg).val + 1 = (15 : Reg).val ∧ (15 : Reg).val ≤ (15 : Reg).val ∧
      0x000D % 4096 = ((State.setIdx (at0200 0xFF55) 0x0FFF).dataAddress + (14 : Reg).val) % 4096) ∧
    ((State.setIdx (at0200 0xF033) 0x0202).fault.kind = .none ∧
      decode (State.setIdx (at0200 0xF033) 0x0202).fetch = .ok (.bcd 0) ∧
      0x0202 % 4096 = (State.setIdx (at0200 0xF033) 0x0202).dataAddress % 4096 ∧
      0x0203 % 4096 = ((State.setIdx (at0200 0xF033) 0x0202).dataAddress + 1) % 4096) := by decide

theorem test_witness_StoredBytesReadBackAroundMemory :
    ([] : List Byte).length ≤ 4096 ∧ (List.replicate 4096 (1 : Byte)).length ≤ 4096 := by
  simp only [List.length_nil, List.length_replicate, Nat.zero_le, le_refl, and_self]

/-- Push at depths 0 and 15, Pop at depths 1 and 16, and the two that give nothing. -/
theorem test_witness_PushAndPopAreLastInFirstOut :
    (∃ t, (depth 0).push 0x0202 = some t) ∧ (∃ t, (depth 15).push 0x0202 = some t) ∧
    (∃ v u, (depth 1).pop = some (v, u)) ∧ (∃ v u, (depth 16).pop = some (v, u)) ∧
    (depth 16).push (depth 16).pc = none ∧ (depth 0).pop = none :=
  ⟨⟨_, rfl⟩, ⟨_, rfl⟩, ⟨_, _, rfl⟩, ⟨_, _, rfl⟩, rfl, rfl⟩

/-- An empty stack whose entries differ, before a call that pushes over one of them. -/
theorem test_witness_StaleStackEntriesAreUnobservable :
    SameButStaleStack (at0200 0x2300) { at0200 0x2300 with stack := (depth 0).stack } ∧
    (at0200 0x2300).stack ≠ (depth 0).stack ∧ ∃ t r, stepOp Config.default (at0200 0x2300) = .next (t, r) :=
  ⟨⟨rfl, fun _ _ h => absurd h (Nat.not_lt_zero _)⟩, by decide, _, _, rfl⟩

/-- I = 0x0FFF and I = 0xFFFF before a load. -/
theorem test_witness_HighIndexBitsAreUnobservable :
    SameButHighIndex ((at0200 0xF165).setIdx 0x0FFF) ((at0200 0xF165).setIdx 0xFFFF) ∧
    ∃ t r, stepOp Config.default ((at0200 0xF165).setIdx 0x0FFF) = .next (t, r) :=
  ⟨⟨rfl, by decide⟩, _, _, rfl⟩

theorem test_witness_TickAndStepCommute :
    ∃ t r, stepOp Config.default ({ at0200 0x6A05 with dt := 1, st := 0 } : State) = .next (t, r) := ⟨_, _, rfl⟩

theorem test_witness_TimersStayZeroFromReset :
    Reachable Config.default (State.load Config.default []) ∧ Reachable loose (State.load loose [0x12]).tick :=
  ⟨.load [] (by decide), .tick _ (.load [0x12] (by decide))⟩

/-- ROMs of 0 and of 3584 bytes, and the first and last place of every range. -/
theorem test_witness_ResetValues :
    ([] : List Byte).length ≤ 3584 ∧ (List.replicate 3584 (1 : Byte)).length ≤ 3584 ∧ (0x04F < 0x050) ∧ (0 < 80 ∧ 79 < 80) ∧
    (0x0A0 ≤ 0x0A0 ∧ 0x1FF < 0x200) ∧ 3583 < (List.replicate 3584 (1 : Byte)).length ∧
    (0x200 + ([] : List Byte).length ≤ 0x200 ∧ 0xFFF ≤ 0xFFF) ∧ (0 < 16 ∧ 15 < 16) := by decide +kernel

theorem test_witness_RomSizeBoundary :
    3584 < (List.replicate 3585 (1 : Byte)).length ∧ (List.replicate 3584 (1 : Byte)).length = 3584 ∧ (0 < 3584 ∧ 3583 < 3584) ∧
    (State.reset.fault.kind = .none ∧ ∃ t, stepWith Config.default State.reset = .next t) :=
  ⟨by decide +kernel, by decide +kernel, by decide, by decide, _, rfl⟩

theorem test_witness_EntryPointIsTheRomsFirstWord :
    ([] : List Byte).length ≤ 3584 ∧ ([0xAA] : List Byte).length ≤ 3584 ∧ (List.replicate 3584 (1 : Byte)).length ≤ 3584 := by
  decide +kernel

/-- A running and a stopped state that meet the invariant, and a step from each. -/
theorem test_witness_EveryStepKeepsTheInvariant :
    (State.reset.Inv Config.default.strictSkipDecode ∧ ∃ t, step State.reset = .next t) ∧
    stopped.Inv Config.default.strictSkipDecode ∧ ∃ t, step stopped = .next t :=
  ⟨⟨⟨by decide, rfl, rfl⟩, _, rfl⟩, ⟨by decide, by decide, by decide, by decide⟩, _, rfl⟩

/-- The invariant and a move of each operation, the failed Reset among them. -/
theorem test_witness_EveryHostOperationKeepsTheInvariant :
    State.reset.Inv Config.default.strictSkipDecode ∧
    (∃ r t, hostMove Config.default State.reset (.reset []) r t) ∧
    (∃ r t, hostMove Config.default State.reset (.reset (List.replicate 3585 0)) r t) ∧
    (∃ r t, hostMove Config.default State.reset .step r t) ∧ (∃ r t, hostMove Config.default State.reset .tick r t) ∧
    ∃ r t, hostMove Config.default State.reset .consumeRedraw r t :=
  ⟨⟨by decide, rfl, rfl⟩, ⟨_, _, State.reset, by decide, rfl, rfl⟩, ⟨_, _, State.reset, by decide, rfl, rfl⟩,
    ⟨_, _, _, rfl, rfl, rfl⟩, ⟨_, _, rfl, rfl⟩, _, _, rfl, rfl⟩

end Sys2Proof.Tests
end

/-! # Proofs: the state (10_state.md)

The register access table of R13, the flag writers of R12, the call stack of R20 and R21, the reset values of R30. -/

/-! ## The register access table (R13) and the flag writers (R12) -/

namespace Sys2Proof.Machine

theorem mem_regsUpTo (r x : Reg) : r ∈ regsUpTo x ↔ r ≤ x := by simp [regsUpTo]

/-- 00EE never touches the register file. -/
theorem execRet_v {s t : State} (h : exec .ret s = .next t) : t.v = s.v := by
  by_cases hs : 0 < s.sp.val
  · obtain ⟨w, u, hu, -, hv, -⟩ := execRet_of_pos s hs
    cases hu.symm.trans h
    rw [hv]
  · cases (execRet_of_zero s (by omega)).symm.trans h
    rfl

/-- 2NNN never touches the register file. -/
theorem execCall_v {nnn : Addr} {s t : State} (h : exec (.call nnn) s = .next t) : t.v = s.v := by
  by_cases hs : s.sp.val < 16
  · obtain ⟨u, hu, hv, -⟩ := execCall_of_lt s nnn hs
    cases hu.symm.trans h
    rw [hv]
  · cases (execCall_of_full s nnn (by omega)).symm.trans h
    rfl

/-- A register outside the writes column of R13 keeps its value. -/
theorem execWith_readV_of_notMem_writtenRegs {cfg : Config} {i : Instr} {s t : State} (h : execWith cfg i s = .next t)
    {r : Reg} (hr : r ∉ writtenRegs i) : t.readV r = s.readV r := by
  cases i with
  | ret => exact State.readV_congr (execRet_v h) r
  | call nnn => exact State.readV_congr (execCall_v h) r
  | cls | jp _ | ldI _ | addI _ | bcd _ | stRegs _ => cases h; rfl
  | seImm _ _ | sneImm _ _ | seReg _ _ | sneReg _ _ => cases h; exact State.readV_skipIf s _ r
  | ldImm x _ | addImm x _ | ldReg x _ | or x _ | and x _ | xor x _ =>
    have hx : r ≠ x := by simpa [writtenRegs] using hr
    cases h
    rw [State.readV_writeV, if_neg hx]
  | addReg x _ | sub x _ | subn x _ | shr x _ | shl x _ =>
    obtain ⟨hx, hf⟩ : r ≠ x ∧ r ≠ flagReg := by simpa [writtenRegs] using hr
    cases h
    exact (State.readV_writeResult ..).trans (by rw [if_neg hf, if_neg hx])
  | drw _ _ _ =>
    have hf : r ≠ flagReg := by simpa [writtenRegs] using hr
    cases h
    rw [State.readV_writeFlag, if_neg hf, State.readV_putFrame]
  | ldRegs x =>
    have hx : ¬ r.val < x.val + 1 := by rw [writtenRegs, mem_regsUpTo, Fin.le_def] at hr; omega
    cases h
    rw [State.readV_setIdx, State.readV_loadRegs _ _ _ (by omega), if_neg hx]

/-- The state with another register file. -/
def State.withV (s : State) (v : Vector Byte 16) : State := { s with v := v }

theorem State.pop_withV (s : State) (v : Vector Byte 16) :
    (s.withV v).pop = s.pop.map fun p => (p.1, p.2.withV v) := by
  by_cases h : 0 < s.sp.val
  · simp [State.pop, State.withV, h]
  · simp [State.pop, State.withV, h]

theorem State.push_withV (s : State) (v : Vector Byte 16) (w : Word) :
    (s.withV v).push w = (s.push w).map fun t => t.withV v := by
  by_cases h : s.sp.val < stackDepth
  · simp [State.push, State.withV, h]
  · simp [State.push, State.withV, h]

/-- Two states that differ at most in V registers, and not in those listed: the relation of R13's noninterference. -/
def AgreeOn (regs : List Reg) (s s' : State) : Prop := s' = s.withV s'.v ∧ ∀ r ∈ regs, s'.readV r = s.readV r

namespace AgreeOn

variable {regs : List Reg} {s s' : State}

theorem readV {r : Reg} (h : AgreeOn regs s s') (hr : r ∈ regs) : s'.readV r = s.readV r := h.2 r hr

theorem exists_withV (h : AgreeOn regs s s') : ∃ v, s' = s.withV v := ⟨_, h.1⟩

theorem nil_of_withV (s : State) (v : Vector Byte 16) : AgreeOn [] s (s.withV v) := ⟨rfl, by simp⟩

theorem nil (h : AgreeOn regs s s') : AgreeOn [] s s' := ⟨h.1, by simp⟩

/-! Every operation that takes the same arguments on both sides keeps the agreement; a register write adds its register to it. -/

theorem setPc (h : AgreeOn regs s s') (w : Word) : AgreeOn regs (s.setPc w) (s'.setPc w) :=
  ⟨congrArg (State.setPc · w) h.1, h.2⟩

theorem setIdx (h : AgreeOn regs s s') (w : Word) : AgreeOn regs (s.setIdx w) (s'.setIdx w) :=
  ⟨congrArg (State.setIdx · w) h.1, h.2⟩

theorem storeBytes (h : AgreeOn regs s s') (a : Nat) (bytes : List Byte) :
    AgreeOn regs (s.storeBytes a bytes) (s'.storeBytes a bytes) :=
  ⟨congrArg (State.storeBytes · a bytes) h.1, h.2⟩

theorem putFrame (h : AgreeOn regs s s') (fb : FrameBuffer) : AgreeOn regs (s.putFrame fb) (s'.putFrame fb) :=
  ⟨congrArg (State.putFrame · fb) h.1, h.2⟩

theorem raise (h : AgreeOn regs s s') (kind : FaultKind) (a op : Word) :
    AgreeOn regs (s.raise kind a op) (s'.raise kind a op) :=
  ⟨congrArg (State.raise · kind a op) h.1, h.2⟩

theorem pc_eq (h : AgreeOn regs s s') : s'.pc = s.pc := (congrArg State.pc h.1).trans rfl

theorem idx_eq (h : AgreeOn regs s s') : s'.idx = s.idx := (congrArg State.idx h.1).trans rfl

theorem mem_eq (h : AgreeOn regs s s') : s'.mem = s.mem := (congrArg State.mem h.1).trans rfl

theorem fb_eq (h : AgreeOn regs s s') : s'.fb = s.fb := (congrArg State.fb h.1).trans rfl

theorem dataAddress_eq (h : AgreeOn regs s s') : s'.dataAddress = s.dataAddress := congrArg BitVec.toNat h.idx_eq

theorem idxAfterTransfer_eq (h : AgreeOn regs s s') (x : Reg) : s'.idxAfterTransfer x = s.idxAfterTransfer x :=
  congrArg (· + _) h.idx_eq

theorem skipIf (h : AgreeOn regs s s') (cond : Bool) : AgreeOn regs (s.skipIf cond) (s'.skipIf cond) := by
  rw [State.skipIf_eq, State.skipIf_eq, h.pc_eq]
  exact h.setPc _

theorem writeV (h : AgreeOn regs s s') (r : Reg) (b : Byte) : AgreeOn (r :: regs) (s.writeV r b) (s'.writeV r b) := by
  refine ⟨by obtain ⟨v, rfl⟩ := h.exists_withV; rfl, fun q hq => ?_⟩
  rw [State.readV_writeV, State.readV_writeV]
  by_cases hqr : q = r
  · rw [if_pos hqr, if_pos hqr]
  · rw [if_neg hqr, if_neg hqr]
    exact h.readV ((List.mem_cons.1 hq).resolve_left hqr)

theorem writeFlag (h : AgreeOn regs s s') (flag : Bool) : AgreeOn (flagReg :: regs) (s.writeFlag flag) (s'.writeFlag flag) :=
  h.writeV flagReg _

theorem writeResult (h : AgreeOn regs s s') (x : Reg) (result : Byte) (flag : Bool) :
    AgreeOn [x, flagReg] (s.writeResult x result flag) (s'.writeResult x result flag) := by
  obtain ⟨hv, hr⟩ := (h.nil.writeV x result).writeFlag flag
  exact ⟨hv, fun r hmem => hr r (by simpa [or_comm] using hmem)⟩

theorem loadRegs (h : AgreeOn regs s s') (a : Nat) (x : Reg) :
    AgreeOn (regsUpTo x) (s.loadRegs a (x.val + 1)) (s'.loadRegs a (x.val + 1)) := by
  obtain ⟨v, rfl⟩ := h.exists_withV
  refine ⟨?_, fun r hr => ?_⟩
  · rw [State.loadRegs_eq, s.loadRegs_eq]
    rfl
  · have hx : r.val < x.val + 1 := by rw [mem_regsUpTo, Fin.le_def] at hr; omega
    rw [State.readV_loadRegs _ _ _ (by omega), State.readV_loadRegs _ _ _ (by omega), if_pos hx, if_pos hx]
    rfl

theorem regBytes_eq {x : Reg} (h : AgreeOn (regsUpTo x) s s') : s'.regBytes x = s.regBytes x := by
  refine List.ext_getElem (by simp only [State.regBytes_length]) fun k hk' hk => ?_
  rw [State.regBytes_getElem, State.regBytes_getElem]
  rw [State.regBytes_length] at hk
  exact h.readV (r := ⟨k, by omega⟩) ((mem_regsUpTo _ _).2 (Fin.le_def.2 (Nat.le_of_lt_succ hk)))

theorem shiftOperand_eq {usesVy : Bool} {x y : Reg} (h : AgreeOn (if usesVy then [y] else [x]) s s') :
    s'.shiftOperand usesVy x y = s.shiftOperand usesVy x y := by
  cases usesVy with
  | true => exact h.readV (List.mem_singleton.2 rfl)
  | false => exact h.readV (List.mem_singleton.2 rfl)

theorem sprite_eq {x y : Reg} (h : AgreeOn [x, y] s s') (n : Nibble) : s'.sprite x y n = s.sprite x y n := by
  have hx := h.readV (r := x) (by simp)
  have hy := h.readV (r := y) (by simp)
  simp only [State.sprite, h.dataAddress_eq, h.fb_eq, h.mem_eq, hx, hy]

end AgreeOn

/-- 00EE on two states that differ in V registers only. -/
theorem execRet_agreeOn {s s' : State} (h : AgreeOn [] s s') :
    ∃ t t', exec .ret s = .next t ∧ exec .ret s' = .next t' ∧ AgreeOn [] t t' := by
  obtain ⟨v, rfl⟩ := h.exists_withV
  simp only [exec, execRet, State.pop_withV]
  cases s.pop with
  | none => exact ⟨_, _, rfl, rfl, h.raise ..⟩
  | some p => exact ⟨_, _, rfl, rfl, (AgreeOn.nil_of_withV p.2 v).setPc _⟩

/-- 2NNN on two states that differ in V registers only. -/
theorem execCall_agreeOn (nnn : Addr) {s s' : State} (h : AgreeOn [] s s') :
    ∃ t t', exec (.call nnn) s = .next t ∧ exec (.call nnn) s' = .next t' ∧ AgreeOn [] t t' := by
  obtain ⟨v, rfl⟩ := h.exists_withV
  simp only [exec, execCall, State.push_withV, h.pc_eq]
  cases s.push s.pc with
  | none => exact ⟨_, _, rfl, rfl, h.raise ..⟩
  | some t => exact ⟨_, _, rfl, rfl, (AgreeOn.nil_of_withV t v).setPc _⟩

/-- States that agree on the registers an instruction reads are taken to states that agree on those it writes (R13). -/
theorem execWith_agreeOn (cfg : Config) (i : Instr) {s s' : State} (h : AgreeOn (readRegs cfg.shiftUsesVy i) s s') :
    ∃ t t', execWith cfg i s = .next t ∧ execWith cfg i s' = .next t' ∧ AgreeOn (writtenRegs i) t t' := by
  cases i with
  | ret => exact execRet_agreeOn h
  | call nnn => exact execCall_agreeOn nnn h
  | cls => exact ⟨_, _, rfl, rfl, h.putFrame _⟩
  | jp nnn => exact ⟨_, _, rfl, rfl, h.setPc _⟩
  | ldI nnn => exact ⟨_, _, rfl, rfl, h.setIdx _⟩
  | seImm x nn | sneImm x nn =>
    have hx := h.readV (r := x) (by simp [readRegs])
    refine ⟨_, _, rfl, rfl, ?_⟩
    rw [hx]
    exact h.nil.skipIf _
  | seReg x y | sneReg x y =>
    have hx := h.readV (r := x) (by simp [readRegs])
    have hy := h.readV (r := y) (by simp [readRegs])
    refine ⟨_, _, rfl, rfl, ?_⟩
    rw [hx, hy]
    exact h.nil.skipIf _
  | ldImm x nn => exact ⟨_, _, rfl, rfl, h.writeV x nn⟩
  | addImm x nn =>
    have hx := h.readV (r := x) (by simp [readRegs])
    refine ⟨_, _, rfl, rfl, ?_⟩
    rw [hx]
    exact h.nil.writeV x _
  | ldReg x y =>
    have hy := h.readV (r := y) (by simp [readRegs])
    refine ⟨_, _, rfl, rfl, ?_⟩
    rw [hy]
    exact h.nil.writeV x _
  | or x y | and x y | xor x y =>
    have hx := h.readV (r := x) (by simp [readRegs])
    have hy := h.readV (r := y) (by simp [readRegs])
    refine ⟨_, _, rfl, rfl, ?_⟩
    rw [hx, hy]
    exact h.nil.writeV x _
  | addReg x y | sub x y | subn x y =>
    have hx := h.readV (r := x) (by simp [readRegs])
    have hy := h.readV (r := y) (by simp [readRegs])
    refine ⟨_, _, rfl, rfl, ?_⟩
    rw [hx, hy]
    exact h.writeResult x _ _
  | shr x y | shl x y =>
    refine ⟨_, _, rfl, rfl, ?_⟩
    rw [AgreeOn.shiftOperand_eq h]
    exact h.writeResult x _ _
  | drw x y n =>
    refine ⟨_, _, rfl, rfl, ?_⟩
    rw [AgreeOn.sprite_eq h]
    exact (h.nil.putFrame _).writeFlag _
  | addI x =>
    have hx := h.readV (r := x) (by simp [readRegs])
    refine ⟨_, _, rfl, rfl, ?_⟩
    rw [hx, h.idx_eq]
    exact h.nil.setIdx _
  | bcd x =>
    have hx := h.readV (r := x) (by simp [readRegs])
    refine ⟨_, _, rfl, rfl, ?_⟩
    rw [hx, h.dataAddress_eq]
    exact h.nil.storeBytes _ _
  | stRegs x =>
    refine ⟨_, _, rfl, rfl, ?_⟩
    rw [AgreeOn.regBytes_eq h, h.dataAddress_eq, h.idxAfterTransfer_eq]
    exact (h.nil.storeBytes _ _).setIdx _
  | ldRegs x =>
    refine ⟨_, _, rfl, rfl, ?_⟩
    rw [h.dataAddress_eq, h.idxAfterTransfer_eq]
    exact (h.loadRegs _ x).setIdx _

/-- Settles O42: the writes column by the frame lemma, the reads column by agreement kept through execution. -/
theorem registerReadWriteTable : Obligations.RegisterReadWriteTable := by
  intro cfg i s t h
  refine ⟨fun r hr => execWith_readV_of_notMem_writtenRegs h hr, fun s' hs' hread => ?_⟩
  obtain ⟨u, t', hu, ht', hv, hwritten⟩ := execWith_agreeOn cfg i (s := s) (s' := s') ⟨hs', hread⟩
  cases hu.symm.trans h
  exact ⟨t', ht', hv, hwritten⟩

theorem flagByte_eq_zero_or_one (b : Bool) : flagByte b = 0 ∨ flagByte b = 1 := by
  cases b with
  | false => exact .inl rfl
  | true => exact .inr rfl

/-- A flag writer ends by writing a flag to VF (R100, R131). -/
theorem execWith_flag_of_writesFlag {cfg : Config} {i : Instr} {s t : State} (h : execWith cfg i s = .next t)
    (hi : writesFlag i = true) : ∃ b, t.readV flagReg = flagByte b := by
  cases i with
  | addReg | sub | shr | subn | shl => cases h; exact ⟨_, State.readV_writeFlag ..⟩
  | drw => cases h; exact ⟨_, State.readV_writeFlag ..⟩
  | _ => cases hi

/-- The instructions other than the flag writers that have VF among the registers they write name it as their destination. -/
theorem destination_of_flagReg_mem_writtenRegs {i : Instr} (hi : writesFlag i = false) (hf : flagReg ∈ writtenRegs i) :
    (∃ nn, i = .ldImm flagReg nn ∨ i = .addImm flagReg nn) ∨
    (∃ y, i = .ldReg flagReg y ∨ i = .or flagReg y ∨ i = .and flagReg y ∨ i = .xor flagReg y) ∨ i = .ldRegs flagReg := by
  cases i with
  | ldImm x _ | addImm x _ | ldReg x _ | or x _ | and x _ | xor x _ =>
    cases List.mem_singleton.1 hf
    simp
  | ldRegs x =>
    have hx : x = flagReg := Fin.ext (by have := Fin.le_def.1 ((mem_regsUpTo _ _).1 hf); simp only [flagReg] at *; omega)
    exact .inr (.inr (hx ▸ rfl))
  | addReg | sub | shr | subn | shl | drw => cases hi
  | _ => cases hf

/-- Settles O43: a flag writer's last write is the flag; any other instruction that changes VF has it in the writes column of R13. -/
theorem flagWritersLeaveZeroOrOne : Obligations.FlagWritersLeaveZeroOrOne := by
  intro cfg i s
  obtain ⟨t, h⟩ := execWith_next cfg i s
  refine ⟨t, h, fun hi => ?_, fun hi hne => destination_of_flagReg_mem_writtenRegs hi ?_⟩
  · obtain ⟨b, hb⟩ := execWith_flag_of_writesFlag h hi
    rw [hb]
    exact flagByte_eq_zero_or_one b
  · by_contra hf
    exact hne (execWith_readV_of_notMem_writtenRegs h hf)

/-! ## The call stack (R20, R21) -/

theorem State.push_eq_none_iff (s : State) (w : Word) : s.push w = none ↔ s.sp.val = 16 := by
  refine ⟨fun h => ?_, fun h => s.push_full w (Fin.ext h)⟩
  by_contra hne
  obtain ⟨t, ht, -⟩ := s.push_eq_some w (by omega)
  cases ht.symm.trans h

theorem State.pop_eq_none_iff (s : State) : s.pop = none ↔ s.sp.val = 0 := by
  refine ⟨fun h => ?_, fun h => s.pop_empty (Fin.ext h)⟩
  by_contra hne
  obtain ⟨w, t, ht, -⟩ := s.pop_eq_some (by omega)
  cases ht.symm.trans h

/-- What a Push that succeeds did. -/
theorem State.push_some_cases {s t : State} {w : Word} (h : s.push w = some t) :
    ∃ hs : s.sp.val < 16, t = { s with stack := s.stack.set s.sp.val w hs, sp := t.sp } ∧ t.sp.val = s.sp.val + 1 := by
  have hs : s.sp.val < 16 := by
    by_contra hge
    cases ((s.push_eq_none_iff w).2 (by omega)).symm.trans h
  obtain ⟨u, hu, hstate, hsp⟩ := s.push_eq_some w hs
  cases hu.symm.trans h
  exact ⟨hs, hstate, hsp⟩

/-- What a Pop that succeeds did. -/
theorem State.pop_some_cases {s t : State} {w : Word} (h : s.pop = some (w, t)) :
    s.stack[s.sp.val - 1]? = some w ∧ t = { s with sp := t.sp } ∧ t.sp.val + 1 = s.sp.val := by
  have hs : 0 < s.sp.val := by
    by_contra hle
    cases (s.pop_eq_none_iff.2 (by omega)).symm.trans h
  obtain ⟨v, u, hu, hw, hstate, hsp⟩ := s.pop_eq_some hs
  cases hu.symm.trans h
  exact ⟨hw, hstate, hsp⟩

/-- Another stack and another depth change the stack only. -/
theorem changesOnly_stack (s : State) (stack : Vector Word stackDepth) (sp : Fin 17) :
    ChangesOnly { stack := true } s { s with stack := stack, sp := sp } :=
  ⟨fun _ _ => rfl, fun _ _ _ => rfl, fun _ => rfl, fun _ => rfl, Bool.noConfusion, fun _ => ⟨rfl, rfl⟩, fun _ => rfl, rfl, rfl⟩

/-- Pop after Push gives the pushed value and the old depth back. -/
theorem State.pop_of_push {s t : State} {w : Word} (h : s.push w = some t) : ∃ u, t.pop = some (w, u) ∧ u.sp = s.sp := by
  obtain ⟨hs, ht, hsp⟩ := State.push_some_cases h
  obtain ⟨v, u, hpop, hv, -, hu⟩ := t.pop_eq_some (by omega)
  have hvw : v = w := by
    rw [hsp, Nat.add_sub_cancel, ht, Vector.getElem?_set_self] at hv
    exact (Option.some.inj hv).symm
  exact ⟨u, hvw ▸ hpop, Fin.ext (by omega)⟩

/-- Settles O49: the two error cases by `push_full` and `pop_empty`, the others by what Push and Pop did. -/
theorem pushAndPopAreLastInFirstOut : Obligations.PushAndPopAreLastInFirstOut := by
  intro s w
  refine ⟨s.push_eq_none_iff w, s.pop_eq_none_iff, fun h nnn => ?_, fun h => ?_, fun t h => ?_, fun v u h => ?_⟩
  · exact execCall_of_full s nnn ((s.push_eq_none_iff _).1 h)
  · exact execRet_of_zero s (s.pop_eq_none_iff.1 h)
  · obtain ⟨hs, ht, hsp⟩ := State.push_some_cases h
    refine ⟨hsp, ?_, fun k hk => ?_, ht ▸ changesOnly_stack s _ _, State.pop_of_push h⟩
    · rw [ht]
      exact Vector.getElem?_set_self hs
    · rw [ht]
      exact Vector.getElem?_set_ne hs (Ne.symm hk)
  · obtain ⟨hv, hu, hsp⟩ := State.pop_some_cases h
    have hidx : u.sp.val = s.sp.val - 1 := by omega
    exact ⟨hsp, hidx ▸ hv, by rw [hu], hu ▸ changesOnly_stack s _ _⟩

/-! ## The reset values (R30) -/

theorem State.readV_load (cfg : Config) (rom : List Byte) (r : Reg) : (State.load cfg rom).readV r = 0 := by
  simp [State.readV, State.load, State.reset]

theorem State.stack_load (cfg : Config) (rom : List Byte) (k : Nat) (hk : k < 16) :
    (State.load cfg rom).stack[k]? = some 0 := by
  simp [State.load, State.reset, hk]

theorem State.pixel_load (cfg : Config) (rom : List Byte) (px py : Nat) : (State.load cfg rom).fb.pixel px py = false :=
  FrameBuffer.pixel_clear px py

theorem resetOp_of_length_le (cfg : Config) (rom : List Byte) (free : State) (h : rom.length ≤ maxRom) :
    resetOp cfg rom free = (State.load cfg rom, .ok) := if_neg (by omega)

section Memory

variable (cfg : Config) (rom : List Byte) (hrom : rom.length ≤ maxRom)
include hrom

/-- After Reset the glyph table is FONT. -/
theorem State.readMem_load_font (k : Nat) (hk : k < 80) : (State.load cfg rom).readMem (0x050 + k) = cfg.font[k] := by
  rw [State.readMem_load _ _ _ hrom (by simp only [memSize]; omega), dif_pos (by simp only [fontBase, fontLen]; omega)]
  simp only [fontBase, Nat.add_sub_cancel_left]

/-- After Reset the program is the ROM. -/
theorem State.readMem_load_rom (k : Nat) (hk : k < rom.length) : (State.load cfg rom).readMem (0x200 + k) = rom[k] := by
  simp only [maxRom] at hrom
  rw [State.readMem_load _ _ _ hrom (by simp only [memSize]; omega), dif_neg (by simp only [fontBase, fontLen]; omega),
    dif_pos (by simp only [progBase]; omega)]
  simp only [progBase, Nat.add_sub_cancel_left]

/-- After Reset every byte outside the glyph table and the program is 0. -/
theorem State.readMem_load_rest (a : Nat) (ha : a ≤ 0xFFF) (hfont : ¬ (0x050 ≤ a ∧ a < 0x0A0))
    (hprog : ¬ (0x200 ≤ a ∧ a < 0x200 + rom.length)) : (State.load cfg rom).readMem a = 0 := by
  rw [State.readMem_load _ _ _ hrom (by simp only [memSize]; omega), dif_neg (by simp only [fontBase, fontLen]; omega), dif_neg hprog]

end Memory

/-- Settles O55: memory by its three regions, every other element by its own reset value. -/
theorem resetValues : Obligations.ResetValues := by
  intro cfg rom free hrom
  refine ⟨State.load cfg rom, resetOp_of_length_le cfg rom free hrom, fun a ha => ?_, State.readMem_load_font cfg rom hrom,
    fun a hlo hhi => ?_, State.readMem_load_rom cfg rom hrom, fun a hlo hhi => ?_, State.readV_load cfg rom, rfl, rfl,
    State.stack_load cfg rom, rfl, rfl, rfl, State.pixel_load cfg rom, rfl, rfl⟩
  all_goals exact State.readMem_load_rest cfg rom hrom a (by omega) (by omega) (by omega)

end Sys2Proof.Machine

/-! # Proofs: memory (20_memory.md)

The memory access table of R55, and the stores of R53 as the fetch sees them. -/

/-! ## The memory access table (R55) -/

namespace Sys2Proof.Machine

/-- The state with another memory. -/
def State.withMem (s : State) (m : Memory) : State := { s with mem := m }

@[simp] theorem State.withMem_pc (s : State) (m : Memory) : (s.withMem m).pc = s.pc := rfl

theorem State.pop_withMem (s : State) (m : Memory) :
    (s.withMem m).pop = s.pop.map fun p => (p.1, p.2.withMem m) := by
  by_cases h : 0 < s.sp.val
  · simp [State.pop, State.withMem, h]
  · simp [State.pop, State.withMem, h]

theorem State.push_withMem (s : State) (m : Memory) (w : Word) :
    (s.withMem m).push w = (s.push w).map fun t => t.withMem m := by
  by_cases h : s.sp.val < stackDepth
  · simp [State.push, State.withMem, h]
  · simp [State.push, State.withMem, h]

theorem State.skipIf_withMem (s : State) (m : Memory) (cond : Bool) :
    (s.withMem m).skipIf cond = (s.skipIf cond).withMem m := by
  cases cond with
  | false => rfl
  | true => rfl

/-- A load depends only on the bytes it loads. -/
theorem State.loadRegs_withMem (s : State) (m : Memory) (addr n : Nat)
    (h : ∀ k < n, m.read (addr + k) = s.readMem (addr + k)) :
    (s.withMem m).loadRegs addr n = (s.loadRegs addr n).withMem m := by
  induction n with
  | zero => rfl
  | succ k ih =>
    have hk : (s.withMem m).readMem (addr + k) = s.readMem (addr + k) := h k (by omega)
    rw [State.loadRegs, State.loadRegs, ih fun j hj => h j (by omega), hk]
    rfl

/-- A sprite depends only on the bytes of its rows. -/
theorem Canvas.putSprite_congr (c : Canvas) {m m' : Memory} (addr x y n : Nat)
    (h : ∀ r < n, m'.read (addr + r) = m.read (addr + r)) :
    c.putSprite m' addr x y n = c.putSprite m addr x y n := by
  induction n with
  | zero => rfl
  | succ r ih => rw [Canvas.putSprite, Canvas.putSprite, ih fun j hj => h j (by omega), h r (by omega)]

/-- The bytes an instruction stores, all from the data address on. -/
def storedBytes (s : State) : Instr → List Byte
  | .bcd x => decimalDigits (s.readV x)
  | .stRegs x => s.regBytes x
  | _ => []

/-- The writes column of R55 is where the stored bytes go. -/
theorem dataWrites_eq (s : State) (i : Instr) : dataWrites s i = addressRange s.dataAddress (storedBytes s i).length := by
  cases i with
  | stRegs x => rw [storedBytes, State.regBytes_length]; rfl
  | _ => rfl

theorem storedBytes_length_le (s : State) (i : Instr) : (storedBytes s i).length ≤ memSize := by
  cases i with
  | stRegs x => rw [storedBytes, State.regBytes_length]; simp only [memSize]; omega
  | bcd x => exact (by decide : 3 ≤ memSize)
  | _ => exact Nat.zero_le _

/-- Agreement on a range of addresses, byte by byte. -/
theorem read_eq_of_forall_addressRange {m m' : Memory} {addr n : Nat}
    (h : ∀ a ∈ addressRange addr n, m'.read a = m.read a) : ∀ k < n, m'.read (addr + k) = m.read (addr + k) := by
  intro k hk
  have := h _ (List.mem_map.2 ⟨k, List.mem_range.2 hk, rfl⟩)
  rwa [Memory.read_mod, Memory.read_mod] at this

/-- Execution on another memory that holds the same bytes where the instruction reads (R55): the same next state, but for the
memory, which is the other one with the same bytes stored. -/
theorem execWith_withMem {cfg : Config} {i : Instr} {s t : State} (h : execWith cfg i s = .next t) (m : Memory)
    (hm : ∀ a ∈ dataReads s i, m.read a = s.readMem a) :
    execWith cfg i (s.withMem m) = .next (t.withMem (m.writeBytes s.dataAddress (storedBytes s i))) := by
  cases i with
  | ret =>
    simp only [execWith, exec, execRet, State.pop_withMem] at h ⊢
    cases hp : s.pop with
    | none => rw [hp] at h; cases h; rfl
    | some p => rw [hp] at h; cases h; rfl
  | call nnn =>
    simp only [execWith, exec, execCall, State.push_withMem, State.withMem_pc] at h ⊢
    cases hp : s.push s.pc with
    | none => rw [hp] at h; cases h; rfl
    | some p => rw [hp] at h; cases h; rfl
  | seImm | sneImm | seReg | sneReg =>
    cases h
    exact congrArg Host.Outcome.next (s.skipIf_withMem m _)
  | ldRegs x =>
    cases h
    have hload := s.loadRegs_withMem m s.dataAddress (x.val + 1) (read_eq_of_forall_addressRange hm)
    exact congrArg (fun u => Host.Outcome.next (State.setIdx u (s.idxAfterTransfer x))) hload
  | drw x y n =>
    cases h
    have hsprite : (s.withMem m).sprite x y n = s.sprite x y n :=
      Canvas.putSprite_congr _ _ _ _ _ (read_eq_of_forall_addressRange hm)
    simp only [execWith, exec, execDrw, hsprite]
    rfl
  | _ => cases h; rfl

/-- Memory after execution: the stored bytes over what was there. -/
theorem execWith_mem_eq {cfg : Config} {i : Instr} {s t : State} (h : execWith cfg i s = .next t) :
    t.mem = s.mem.writeBytes s.dataAddress (storedBytes s i) := by
  have hself : execWith cfg i s = .next (t.withMem _) := execWith_withMem h s.mem fun _ _ => rfl
  injection h.symm.trans hself with ht
  exact congrArg State.mem ht

/-- Every byte of a range stored to is the same, whatever memory held before. -/
theorem Memory.read_writeBytes_of_mem {m m' : Memory} {addr a : Nat} {bytes : List Byte} (hlen : bytes.length ≤ memSize)
    (ha : a ∈ addressRange addr bytes.length) : (m'.writeBytes addr bytes).read a = (m.writeBytes addr bytes).read a := by
  obtain ⟨k, hk, rfl⟩ := List.mem_map.1 ha
  have hk := List.mem_range.1 hk
  rw [Memory.read_mod, Memory.read_mod, Memory.read_writeBytes _ _ _ _ hlen hk, Memory.read_writeBytes _ _ _ _ hlen hk]

/-- A fetch depends only on PC and on the two bytes there. -/
theorem State.fetch_congr {s t : State} (hpc : t.pc = s.pc) (hhi : t.readMem s.pc.toNat = s.readMem s.pc.toNat)
    (hlo : t.readMem (s.pc.toNat + 1) = s.readMem (s.pc.toNat + 1)) : t.fetch = s.fetch := by
  rw [State.fetch, State.fetch, State.wordAt, State.wordAt, hpc, hhi, hlo]

/-- Settles O44: the writes column by the stored bytes, the reads column by execution on another memory. -/
theorem memoryAccessTable : Obligations.MemoryAccessTable := by
  refine ⟨fun s s' hs' => State.fetch_congr ((congrArg State.pc hs').trans rfl),
    fun cfg i s t h => ⟨fun a ha hna => ?_, fun s' hs' hread => ?_⟩⟩
  · rw [dataWrites_eq] at hna
    rw [State.readMem, execWith_mem_eq h]
    exact s.readMem_storeBytes_of_notMem _ _ _ (by rwa [Nat.mod_eq_of_lt ha])
  · obtain ⟨m, rfl⟩ : ∃ m, s' = s.withMem m := ⟨s'.mem, hs'⟩
    refine ⟨_, execWith_withMem h m hread, rfl, fun a ha => ?_⟩
    rw [dataWrites_eq] at ha
    rw [State.readMem, State.readMem, execWith_mem_eq h]
    exact Memory.read_writeBytes_of_mem (storedBytes_length_le s i) ha

/-! ## A fetch after a store (R53) -/

/-- The word at an address whose two bytes have just been stored is those two bytes, high byte first. -/
theorem State.wordAt_storeBytes_toNat (s : State) {addr a k : Nat} {bytes : List Byte} (hlen : bytes.length ≤ memSize)
    (hk : k + 1 < bytes.length) (ha : a % memSize = (addr + k) % memSize) :
    ((s.storeBytes addr bytes).wordAt a).toNat = bytes[k].toNat * 256 + bytes[k + 1].toNat := by
  have hhi : (s.storeBytes addr bytes).readMem a = bytes[k] :=
    (Memory.read_congr _ _ _ ha).trans (s.readMem_storeBytes addr k bytes hlen (by omega))
  have hlo : (s.storeBytes addr bytes).readMem (a + 1) = bytes[k + 1] :=
    (Memory.read_congr _ _ _ (by simp only [memSize] at *; omega)).trans (s.readMem_storeBytes addr (k + 1) bytes hlen hk)
  rw [State.wordAt, hhi, hlo, opcodeOfBytes_toNat]

/-- The step of a running machine whose word decodes, at the default configuration. -/
theorem step_of_ok {s : State} {i : Instr} (hr : s.fault.kind = .none) (hi : decode s.fetch = .ok i) :
    step s = exec i s.advance := by
  rw [step_eq_stepWith_default, stepWith_of_ok hr hi, exec_eq_execWith]

/-- The word at an address whose two bytes FX55 has just stored. -/
theorem State.wordAt_storeBytes_regBytes (s : State) {addr a : Nat} {x r q : Reg} (hrq : r.val + 1 = q.val)
    (hq : q.val ≤ x.val) (ha : a % memSize = (addr + r.val) % memSize) :
    ((s.storeBytes addr (s.regBytes x)).wordAt a).toNat = (s.readV r).toNat * 256 + (s.readV q).toNat := by
  have hlen := s.regBytes_length x
  rw [s.wordAt_storeBytes_toNat (by simp only [memSize]; omega) (k := r.val) (by omega) ha]
  simp only [State.regBytes_getElem, hrq, State.readV]

/-- The words at the two addresses whose two bytes FX33 has just stored. -/
theorem State.wordAt_storeBytes_decimalDigits (s : State) (v : Byte) (addr a : Nat) :
    (a % memSize = addr % memSize →
      ((s.storeBytes addr (decimalDigits v)).wordAt a).toNat = v.toNat / 100 * 256 + v.toNat / 10 % 10) ∧
    (a % memSize = (addr + 1) % memSize →
      ((s.storeBytes addr (decimalDigits v)).wordAt a).toNat = v.toNat / 10 % 10 * 256 + v.toNat % 10) := by
  have hv := v.isLt
  have hlen : (decimalDigits v).length = 3 := rfl
  have hword {k : Nat} := s.wordAt_storeBytes_toNat (addr := addr) (a := a) (k := k) (hlen.le.trans (by decide))
  refine ⟨fun ha => ?_, fun ha => ?_⟩
  · rw [hword (k := 0) (by omega) ha]
    simp only [decimalDigits, List.getElem_cons_zero, List.getElem_cons_succ, BitVec.toNat_ofNat]
    omega
  · rw [hword (k := 1) (by omega) ha]
    simp only [decimalDigits, List.getElem_cons_zero, List.getElem_cons_succ, BitVec.toNat_ofNat]
    omega

/-- Settles O47: each step is the store on the advanced state, and the word there is the two bytes stored. -/
theorem storesAreSeenByTheNextFetch : Obligations.StoresAreSeenByTheNextFetch := by
  intro s x hr
  exact ⟨fun hd => ⟨_, step_of_ok hr hd, hr, rfl, fun a r q => s.advance.wordAt_storeBytes_regBytes⟩,
    fun hd => ⟨_, step_of_ok hr hd, hr, rfl, s.advance.wordAt_storeBytes_decimalDigits _ _⟩⟩

end Sys2Proof.Machine

/-! # Proofs: the encoding (30_encoding.md)

The opcode map of R63 and the decoder. -/

/-! ## What a row of the opcode map selects (R63) -/

namespace Sys2Proof

/-- A word is its class, its two register fields and its low nibble. -/
theorem wordXYN_fields (op : Word) : wordXYN (opClass op) (fieldX op) (fieldY op) (fieldN op) = op := by
  apply BitVec.eq_of_toNat_eq
  rw [wordXYN_toNat, opClass_toNat, fieldX_val, fieldY_val, fieldN_toNat]
  omega

/-- A word is its class, a register field and its low byte. -/
theorem wordXNN_fields (op : Word) : wordXNN (opClass op) (fieldX op) (fieldNN op) = op := by
  apply BitVec.eq_of_toNat_eq
  rw [wordXNN_toNat, opClass_toNat, fieldX_val, fieldNN_toNat]
  omega

theorem fieldNN_eq_iff (op : Word) (nn : Byte) : fieldNN op = nn ↔ op.toNat % 256 = nn.toNat := by
  rw [← BitVec.toNat_inj, fieldNN_toNat]

theorem fieldN_eq_iff (op : Word) (n : Nibble) : fieldN op = n ↔ op.toNat % 16 = n.toNat := by
  rw [← BitVec.toNat_inj, fieldN_toNat]

/-! What each mask of the map keeps of a word, as a number. -/

theorem and_F000_toNat (op : Word) : (op &&& 0xF000#16).toNat = op.toNat / 4096 * 4096 := by
  have h := Laws.EncodingRow.xyn_and_F000 (opClass op) (fieldX op) (fieldY op) (fieldN op)
  rw [wordXYN_fields] at h
  exact (congrArg BitVec.toNat h).trans (by simp [wordXYN_toNat, opClass_toNat])

theorem and_F00F_toNat (op : Word) : (op &&& 0xF00F#16).toNat = op.toNat / 4096 * 4096 + op.toNat % 16 := by
  have h := Laws.EncodingRow.xyn_and_F00F (opClass op) (fieldX op) (fieldY op) (fieldN op)
  rw [wordXYN_fields] at h
  exact (congrArg BitVec.toNat h).trans (by simp [wordXYN_toNat, opClass_toNat, fieldN_toNat])

theorem and_F0FF_toNat (op : Word) : (op &&& 0xF0FF#16).toNat = op.toNat / 4096 * 4096 + op.toNat % 256 := by
  have h := Laws.EncodingRow.xnn_and_F0FF (opClass op) (fieldX op) (fieldNN op)
  rw [wordXNN_fields] at h
  exact (congrArg BitVec.toNat h).trans (by simp [wordXNN_toNat, opClass_toNat, fieldNN_toNat])

theorem OpcodeRow.selects_iff (id : RowId) (mask bits op : Word) :
    OpcodeRow.selects ⟨id, mask, bits⟩ op = true ↔ (op &&& mask).toNat = bits.toNat := by
  rw [OpcodeRow.selects, beq_iff_eq, BitVec.toNat_inj]

/-! What a row of each mask asks of a word: its class and its low twelve bits, its class, its class and low nibble, its class
and low byte. -/

@[simp] theorem OpcodeRow.selects_FFFF (id : RowId) (bits op : Word) :
    OpcodeRow.selects ⟨id, 0xFFFF#16, bits⟩ op = true ↔
      op.toNat / 4096 = bits.toNat / 4096 ∧ op.toNat % 4096 = bits.toNat % 4096 := by
  rw [OpcodeRow.selects_iff, show op &&& 0xFFFF#16 = op from BitVec.and_allOnes]
  omega

@[simp] theorem OpcodeRow.selects_F000 (id : RowId) (bits op : Word) :
    OpcodeRow.selects ⟨id, 0xF000#16, bits⟩ op = true ↔
      op.toNat / 4096 = bits.toNat / 4096 ∧ bits.toNat % 4096 = 0 := by
  rw [OpcodeRow.selects_iff, and_F000_toNat]
  omega

@[simp] theorem OpcodeRow.selects_F00F (id : RowId) (bits op : Word) :
    OpcodeRow.selects ⟨id, 0xF00F#16, bits⟩ op = true ↔
      op.toNat / 4096 = bits.toNat / 4096 ∧ op.toNat % 16 = bits.toNat % 4096 := by
  rw [OpcodeRow.selects_iff, and_F00F_toNat]
  omega

@[simp] theorem OpcodeRow.selects_F0FF (id : RowId) (bits op : Word) :
    OpcodeRow.selects ⟨id, 0xF0FF#16, bits⟩ op = true ↔
      op.toNat / 4096 = bits.toNat / 4096 ∧ op.toNat % 256 = bits.toNat % 4096 := by
  rw [OpcodeRow.selects_iff, and_F0FF_toNat]
  omega

/-- The two rows whose mask follows `STRICT_SKIP_DECODE` (R68). -/
@[simp] theorem OpcodeRow.selects_skipMask (strict : Bool) (id : RowId) {bits : Word} (op : Word)
    (hbits : bits.toNat % 4096 = 0) :
    OpcodeRow.selects ⟨id, if strict = true then 0xF00F#16 else 0xF000#16, bits⟩ op = true ↔
      op.toNat / 4096 = bits.toNat / 4096 ∧ (strict = true → op.toNat % 16 = 0) := by
  cases strict with
  | true => simp [hbits]
  | false => simp [hbits]

/-- The legal words of R63 as conditions on the class, the low twelve bits, the low nibble and the low byte. -/
theorem wordLegal_iff (strict : Bool) (op : Word) : wordLegal strict op = true ↔
    op.toNat / 4096 = 0 ∧ op.toNat % 4096 ∈ [0x0E0, 0x0EE] ∨
    op.toNat / 4096 ∈ [1, 2, 3, 4, 6, 7, 0xA, 0xD] ∨
    op.toNat / 4096 ∈ [5, 9] ∧ (strict = true → op.toNat % 16 = 0) ∨
    op.toNat / 4096 = 8 ∧ op.toNat % 16 ∈ [0, 1, 2, 3, 4, 5, 6, 7, 0xE] ∨
    op.toNat / 4096 = 0xF ∧ op.toNat % 256 ∈ [0x1E, 0x33, 0x55, 0x65] := by
  simp [wordLegal, opcodeTable]
  grind

/-! ## The rows are disjoint (R63) -/

/-- Two rows are disjoint when some bit that both masks keep has another value in one than in the other. -/
def OpcodeRow.Disjoint (row row' : OpcodeRow) : Prop := row.bits &&& row'.mask ≠ row'.bits &&& row.mask

theorem OpcodeRow.Disjoint.not_selects {row row' : OpcodeRow} (h : row.Disjoint row') {op : Word}
    (hrow : row.selects op = true) : ¬ row'.selects op = true := by
  intro hrow'
  rw [OpcodeRow.selects, beq_iff_eq] at hrow hrow'
  apply h
  rw [← hrow, ← hrow', BitVec.and_assoc, BitVec.and_assoc, BitVec.and_comm row.mask]

theorem opcodeTable_pairwise_disjoint (strict : Bool) : (opcodeTable strict).Pairwise OpcodeRow.Disjoint := by
  unfold OpcodeRow.Disjoint
  cases strict <;> decide

theorem length_le_one_of_pairwise_false {α : Type} {l : List α} (h : l.Pairwise fun _ _ => False) : l.length ≤ 1 := by
  match l with
  | [] => exact Nat.zero_le 1
  | [_] => exact le_rfl
  | _ :: _ :: _ => exact (List.rel_of_pairwise_cons h List.mem_cons_self).elim

theorem opcodeTable_selects_at_most_one (strict : Bool) (op : Word) :
    ((opcodeTable strict).filter (·.selects op)).length ≤ 1 :=
  length_le_one_of_pairwise_false
    (List.pairwise_filter.2 ((opcodeTable_pairwise_disjoint strict).imp fun h hrow hrow' => h.not_selects hrow hrow'))

/-! ## The decoder follows the map (R63) -/

/-- What a decoder's answer says of the opcode map: an instruction, that its row selects the word; an error, that no row does. -/
def FollowsMap (strict : Bool) (op : Word) : Except DecodeError Instr → Prop
  | .ok i => ∃ row ∈ opcodeTable strict, row.selects op = true ∧ row.id = i.row
  | .error _ => ¬ wordLegal strict op = true

/-- An instruction follows the map when the map's row of its name selects the word. -/
theorem FollowsMap.ok {strict : Bool} {op : Word} {i : Instr} {row : OpcodeRow}
    (hrow : (opcodeTable strict).find? (·.id = i.row) = some row) (hsel : row.selects op = true) :
    FollowsMap strict op (.ok i) :=
  ⟨row, List.mem_of_find?_eq_some hrow, hsel, by simpa using List.find?_some hrow⟩

theorem followsMap_decodeClass8 (strict : Bool) {op : Word} (hc : op.toNat / 4096 = 8) :
    FollowsMap strict op (decodeClass8 op) := by
  unfold decodeClass8
  rw [fieldN_toNat]
  split
  case h_10 => simp_all [FollowsMap, wordLegal_iff]
  all_goals
    next hn => exact .ok rfl (by simp [hc, hn])

theorem followsMap_decodeClassF (strict : Bool) {op : Word} (hc : op.toNat / 4096 = 0xF) :
    FollowsMap strict op (decodeClassF op) := by
  unfold decodeClassF
  simp only [fieldNN_eq_iff]
  split_ifs
  case neg => simp_all [FollowsMap, wordLegal_iff]
  all_goals
    next hnn => exact .ok rfl (by simp [hc, hnn])

theorem followsMap_decodeWith (strict : Bool) (op : Word) : FollowsMap strict op (decodeWith strict op) := by
  unfold decodeWith
  rw [opClass_toNat]
  split
  case h_1 hc =>
    split_ifs with hcls hret
    · exact .ok rfl (by simp [hcls])
    · exact .ok rfl (by simp [hret])
    · have hcls' : op.toNat ≠ 0x00E0 := fun h => hcls (BitVec.eq_of_toNat_eq h)
      have hret' : op.toNat ≠ 0x00EE := fun h => hret (BitVec.eq_of_toNat_eq h)
      suffices h : op.toNat % 4096 ≠ 0x0E0 ∧ op.toNat % 4096 ≠ 0x0EE by simpa [FollowsMap, wordLegal_iff, hc] using h
      omega
  case h_6 hc | h_10 hc =>
    split
    · simp_all [FollowsMap, wordLegal_iff, fieldN_eq_iff]
    · exact .ok rfl (by simp_all [fieldN_eq_iff])
  case h_9 hc => exact followsMap_decodeClass8 strict hc
  case h_12 hc | h_13 hc | h_15 hc => simp [FollowsMap, wordLegal_iff, hc]
  case h_16 =>
    simp only [imp_false] at *
    exact followsMap_decodeClassF strict (by omega)
  all_goals next hc => exact .ok rfl (by simp [hc])

theorem FollowsMap.exists_ok_iff {strict : Bool} {op : Word} {answer : Except DecodeError Instr}
    (h : FollowsMap strict op answer) :
    (∃ i, answer = .ok i) ↔ wordLegal strict op = true := by
  cases answer with
  | ok i =>
    obtain ⟨row, hmem, hsel, -⟩ := h
    exact iff_of_true ⟨i, rfl⟩ (List.any_eq_true.2 ⟨row, hmem, hsel⟩)
  | error e => exact iff_of_false (fun ⟨_, hi⟩ => nomatch hi) h

/-- Settles O28: disjointness by the bits each pair of rows fixes, the rest by the decoder's answer in each class. -/
theorem decoderFollowsTheOpcodeMap : Obligations.DecoderFollowsTheOpcodeMap := by
  intro strict op
  have h := followsMap_decodeWith strict op
  exact ⟨opcodeTable_selects_at_most_one strict op, fun i hi => by rwa [hi] at h, h.exists_ok_iff⟩

end Sys2Proof

/-! # Proofs: the step cycle (40_step_cycle.md)

The fetched word, `Step` with its result, and its totality. -/

/-! ## The fetched word (R81) -/

namespace Sys2Proof.Machine

/-- The fetched word as a number: the two bytes at PC, high byte first. -/
theorem State.fetch_toNat (s : State) :
    s.fetch.toNat = (s.readMem s.pc.toNat).toNat * 256 + (s.readMem (s.pc.toNat + 1)).toNat := by
  rw [State.fetch, State.wordAt, opcodeOfBytes_toNat]

/-- Settles O33: the fetched word is its two byte reads, and each read reduces its own address. -/
theorem fetchIsBigEndianAndWraps : Obligations.FetchIsBigEndianAndWraps := State.fetch_toNat

/-! ## The result of a step (R86) -/

theorem State.nextTouches_of_ok {cfg : Config} {s : State} {i : Instr}
    (hi : decodeWith cfg.strictSkipDecode s.fetch = .ok i) : s.nextTouches cfg = touchesFrame i := by
  simp only [State.nextTouches, hi]

theorem stepResult_of_running (cfg : Config) (s : State) {t : State} (ht : t.fault.kind = .none) :
    stepResult cfg s t = .ok (s.nextTouches cfg) :=
  if_pos (t.running_iff.2 ht)

theorem stepResult_of_fault (cfg : Config) (s : State) {t : State} (ht : t.fault.kind ≠ .none) :
    stepResult cfg s t = .fatal t.fault :=
  if_neg fun hr => ht (t.running_iff.1 hr)

/-- `Step` with its result is the step, paired with the result of its next state. -/
theorem stepOp_of_stepWith {cfg : Config} {s t : State} (h : stepWith cfg s = .next t) :
    stepOp cfg s = .next (t, stepResult cfg s t) := by
  simp only [stepOp, h]

/-- A step that leaves a fault latched, one that was latched before or one of its own, returns the record. -/
theorem stepOp_of_faulted {cfg : Config} {s t : State} (h : stepWith cfg s = .next t) (ht : t.fault.kind ≠ .none) :
    stepOp cfg s = .next (t, .fatal t.fault) := by
  rw [stepOp_of_stepWith h, stepResult_of_fault cfg s ht]

/-- A step whose instruction completes returns whether it is one of the two that write the frame buffer. -/
theorem stepOp_of_completed {cfg : Config} {s t : State} {i : Instr} (h : stepWith cfg s = .next t)
    (hi : decodeWith cfg.strictSkipDecode s.fetch = .ok i) (ht : t.fault.kind = .none) :
    stepOp cfg s = .next (t, .ok (touchesFrame i)) := by
  rw [stepOp_of_stepWith h, stepResult_of_running cfg s ht, State.nextTouches_of_ok hi]

/-! ## The whole cycle (R80) and its totality (R87) -/

/-- Settles O32: the word of the two bytes at PC is the fetched word; then one case per branch of the cycle. -/
theorem stepFollowsTheCycle : Obligations.StepFollowsTheCycle := by
  intro cfg s op hop
  obtain rfl : s.fetch = op := BitVec.eq_of_toNat_eq (s.fetch_toNat.trans hop.symm)
  refine ⟨fun hf => stepOp_of_faulted (stepWith_of_fault hf) hf, fun hr i hi => ?_, fun hr e he => ?_⟩
  · obtain ⟨t, ht⟩ := execWith_next cfg i s.advance
    have hstep : stepWith cfg s = .next t := (stepWith_of_ok hr hi).trans ht
    exact ⟨t, ht, stepOp_of_completed hstep hi, stepOp_of_faulted hstep⟩
  · exact stepOp_of_faulted (stepWith_of_error hr he) nofun

/-- Settles O34: every step answers a next state, and an answer is at most one pair. -/
theorem stepIsTotalAndDeterministic : Obligations.StepIsTotalAndDeterministic := by
  intro cfg s
  obtain ⟨t, ht⟩ := stepWith_next cfg s
  have hop := stepOp_of_stepWith ht
  exact ⟨⟨_, hop, fun u hu => Host.Outcome.next.inj (hu.symm.trans hop)⟩,
    step_eq_stepWith_default s ▸ stepWith_next Config.default s⟩

end Sys2Proof.Machine

/-! # Proofs: control transfer (41_control_flow.md)

The words of the control-transfer classes, what a jump, a call, a return and a skip leave unchanged, and the skip itself. -/

/-! ## The words of classes 1 to 5 (R63, R68) -/

namespace Sys2Proof

theorem decodeWith_class1 (strict : Bool) (nnn : Addr) : decodeWith strict (wordNNN 0x1 nnn) = .ok (.jp nnn) := by
  simp [decodeWith, opClass_wordNNN, fieldNNN_wordNNN]

theorem decodeWith_class2 (strict : Bool) (nnn : Addr) : decodeWith strict (wordNNN 0x2 nnn) = .ok (.call nnn) := by
  simp [decodeWith, opClass_wordNNN, fieldNNN_wordNNN]

theorem decodeWith_class3 (strict : Bool) (x : Reg) (nn : Byte) :
    decodeWith strict (wordXNN 0x3 x nn) = .ok (.seImm x nn) := by
  simp [decodeWith, opClass_wordXNN, fieldX_wordXNN, fieldNN_wordXNN]

theorem decodeWith_class4 (strict : Bool) (x : Reg) (nn : Byte) :
    decodeWith strict (wordXNN 0x4 x nn) = .ok (.sneImm x nn) := by
  simp [decodeWith, opClass_wordXNN, fieldX_wordXNN, fieldNN_wordXNN]

theorem decodeWith_class5 (strict : Bool) (x y : Reg) (n : Nibble) :
    decodeWith strict (wordXYN 0x5 x y n) =
      if strict && n != 0 then .error .class5LowNibble else .ok (.seReg x y) := by
  simp [decodeWith, opClass_wordXYN, fieldX_wordXYN, fieldY_wordXYN, fieldN_wordXYN]

end Sys2Proof

/-! ## What the control transfers change -/

namespace Sys2Proof.Machine

/-- Another PC changes PC only. -/
theorem changesOnly_setPc (s : State) (w : Word) : ChangesOnly { pc := true } s (s.setPc w) :=
  ⟨fun _ _ => rfl, fun _ _ _ => rfl, fun _ => rfl, Bool.noConfusion, fun _ => ⟨rfl, rfl⟩, fun _ => ⟨rfl, rfl⟩, fun _ => rfl,
    rfl, rfl⟩

/-- Another PC, stack and depth change PC and the stack only. -/
theorem changesOnly_pc_stack (s : State) (w : Word) (stack : Vector Word stackDepth) (sp : Fin 17) :
    ChangesOnly { pc := true, stack := true } s { s with pc := w, stack := stack, sp := sp } :=
  ⟨fun _ _ => rfl, fun _ _ _ => rfl, fun _ => rfl, Bool.noConfusion, Bool.noConfusion, fun _ => ⟨rfl, rfl⟩, fun _ => rfl,
    rfl, rfl⟩

/-- A fatal error changes FAULT only (R141). -/
theorem changesOnly_raise (s : State) (kind : FaultKind) (a op : Word) :
    ChangesOnly { fault := true } s (s.raise kind a op) :=
  ⟨fun _ _ => rfl, fun _ _ _ => rfl, fun _ => rfl, fun _ => rfl, fun _ => ⟨rfl, rfl⟩, fun _ => ⟨rfl, rfl⟩, Bool.noConfusion,
    rfl, rfl⟩

theorem changesOnly_skipIf (s : State) (cond : Bool) : ChangesOnly { pc := true } s (s.skipIf cond) := by
  rw [State.skipIf_eq]
  exact changesOnly_setPc s _

/-! ## Return, jump and call (R90 to R92) -/

/-- Settles O1: the pop of a stack that is not empty, and the raise on an empty one. -/
theorem returnPopsIntoProgramCounter : Obligations.ReturnPopsIntoProgramCounter := by
  refine ⟨fun _ => rfl, fun s => ⟨fun hs => ?_, fun hs => ?_⟩⟩
  · obtain ⟨w, t, hexec, hw, ht, hsp⟩ := execRet_of_pos s hs
    exact ⟨t, hexec, hsp, by rwa [ht], by rw [ht], ht ▸ changesOnly_pc_stack s _ _ _⟩
  · exact ⟨_, execRet_of_zero s hs, rfl, changesOnly_raise s _ _ _⟩

theorem zext16_toNat (nnn : Addr) : (zext16 nnn).toNat = nnn.toNat :=
  BitVec.toNat_setWidth_of_le (by decide)

/-- A jump to the address it was fetched from undoes the advance of PC. -/
theorem State.advance_setPc_self (s : State) : s.advance.setPc s.pc = s := rfl

/-- Settles O2: the jump is one write of PC, and a jump to itself writes back the PC the step advanced. -/
theorem jumpLoadsProgramCounter : Obligations.JumpLoadsProgramCounter := by
  intro nnn s
  have hword : BitVec.ofNat 16 (0x1000 + nnn.toNat) = wordNNN 0x1 nnn := ofNat_eq_wordNNN 0x1 nnn
  rw [hword]
  refine ⟨fun strict => decodeWith_class1 strict nnn, ⟨_, rfl, zext16_toNat nnn, changesOnly_setPc s _⟩,
    fun hr hfetch hself cfg => ?_⟩
  have hpc : zext16 nnn = s.pc := BitVec.eq_of_toNat_eq ((zext16_toNat nnn).trans hself)
  have hdec : decodeWith cfg.strictSkipDecode s.fetch = .ok (.jp nnn) := hfetch ▸ decodeWith_class1 _ nnn
  calc stepWith cfg s = .next (s.advance.setPc (zext16 nnn)) := stepWith_of_ok hr hdec
    _ = .next s := by rw [hpc, State.advance_setPc_self]

/-- Settles O3: the push on a stack that is not full, and the raise on a full one. -/
theorem callPushesAdvancedProgramCounter : Obligations.CallPushesAdvancedProgramCounter := by
  intro nnn s
  have hword : BitVec.ofNat 16 (0x2000 + nnn.toNat) = wordNNN 0x2 nnn := ofNat_eq_wordNNN 0x2 nnn
  rw [hword]
  refine ⟨fun strict => decodeWith_class2 strict nnn, fun hs => ?_, fun hs => ?_⟩
  · obtain ⟨t, hexec, ht, hsp⟩ := execCall_of_lt s nnn hs
    refine ⟨t, hexec, by rw [ht, zext16_toNat], hsp, fun k => ?_, ht ▸ changesOnly_pc_stack s _ _ _⟩
    rw [ht, Vector.getElem?_set]
    simp only [eq_comm]
  · exact ⟨_, execCall_of_full s nnn hs, rfl, changesOnly_raise s _ _ _⟩

/-! ## The skips (R93 to R95, R97) -/

/-- PC after a skip, as a number, for a condition that reflects a proposition. -/
theorem State.skipIf_pc_toNat (s : State) {cond : Bool} {p : Prop} [Decidable p] (h : cond = true ↔ p) :
    (s.skipIf cond).pc.toNat = if p then (s.pc.toNat + 2) % 65536 else s.pc.toNat := by
  by_cases hp : p
  · rw [if_pos hp, h.2 hp, State.skipIf_true, State.advance_pc]
    exact BitVec.toNat_add _ _
  · rw [if_neg hp, Bool.eq_false_iff.2 (hp ∘ h.1), State.skipIf_false]

/-- PC is two bytes on exactly when the condition holds: 2 is not 0 modulo 65536. -/
theorem State.skipIf_pc_eq_add_two_iff (s : State) (cond : Bool) : (s.skipIf cond).pc = s.pc + 2 ↔ cond = true := by
  cases cond with
  | true => simp
  | false => simp

theorem beq_iff_toNat_eq (a b : Byte) : (a == b) = true ↔ a.toNat = b.toNat := by rw [beq_iff_eq, BitVec.toNat_inj]

theorem bne_iff_toNat_ne (a b : Byte) : (a != b) = true ↔ a.toNat ≠ b.toNat := by
  rw [bne_iff_ne, ne_eq, ne_eq, BitVec.toNat_inj]

/-- Settles O4: the skip on the equality of V[X] and NN. -/
theorem skipIfRegisterEqualsImmediate : Obligations.SkipIfRegisterEqualsImmediate := by
  intro x nn s
  have hword : BitVec.ofNat 16 (0x3000 + x.val * 256 + nn.toNat) = wordXNN 0x3 x nn := ofNat_eq_wordXNN 0x3 x nn
  rw [hword]
  exact ⟨fun strict => decodeWith_class3 strict x nn,
    ⟨_, rfl, s.skipIf_pc_toNat (beq_iff_toNat_eq _ _), changesOnly_skipIf s _⟩⟩

/-- Settles O5: the skip on the negated condition of 3XNN, so one of the two skips and the other does not. -/
theorem skipIfRegisterDiffersFromImmediate : Obligations.SkipIfRegisterDiffersFromImmediate := by
  intro x nn s
  have hword : BitVec.ofNat 16 (0x4000 + x.val * 256 + nn.toNat) = wordXNN 0x4 x nn := ofNat_eq_wordXNN 0x4 x nn
  rw [hword]
  refine ⟨fun strict => decodeWith_class4 strict x nn,
    ⟨_, rfl, s.skipIf_pc_toNat (bne_iff_toNat_ne _ _), changesOnly_skipIf s _, _, rfl, ?_⟩⟩
  rw [State.skipIf_pc_eq_add_two_iff, State.skipIf_pc_eq_add_two_iff, bne_iff_ne, beq_iff_eq]

/-- Settles O6: the skip on the equality of two registers; the decoder's class 5 at n = 0 and at n ≠ 0 under each parameter. -/
theorem skipIfRegistersEqual : Obligations.SkipIfRegistersEqual := by
  intro x y s
  have hword (n : Nibble) :
      BitVec.ofNat 16 (0x5000 + x.val * 256 + y.val * 16 + n.toNat) = wordXYN 0x5 x y n := ofNat_eq_wordXYN 0x5 x y n
  refine ⟨fun strict => ?_, fun n hn => ⟨?_, .class5LowNibble, ?_⟩,
    ⟨_, rfl, s.skipIf_pc_toNat (beq_iff_toNat_eq _ _), changesOnly_skipIf s _⟩⟩
  · have hzero : BitVec.ofNat 16 (0x5000 + x.val * 256 + y.val * 16) = wordXYN 0x5 x y 0 := hword 0
    rw [hzero, decodeWith_class5, bne_self_eq_false, Bool.and_false, if_neg Bool.false_ne_true]
  · rw [hword, decodeWith_class5, Bool.false_and, if_neg Bool.false_ne_true]
  · rw [hword, decodeWith_class5, Bool.true_and, if_pos (bne_iff_ne.2 hn)]

end Sys2Proof.Machine

/-! # Proofs: registers and arithmetic (42_register_alu.md)

The words of classes 6 to 8, the frame of a register write, and the result and the flag of each operation. -/

/-! ## The words of classes 6 to 8 (R63) -/

namespace Sys2Proof

/-- The decoder reads every encoding back, at either value of `STRICT_SKIP_DECODE`: the encoder writes 0 where R68 asks for it. -/
theorem decodeWith_encode (strict : Bool) (i : Instr) : decodeWith strict (encode i) = .ok i := by
  cases i with
  | cls | ret => rfl
  | jp | call | ldI => simp [encode, decodeWith, opClass_wordNNN, fieldNNN_wordNNN]
  | seImm | sneImm | ldImm | addImm => simp [encode, decodeWith, opClass_wordXNN, fieldX_wordXNN, fieldNN_wordXNN]
  | addI | bcd | stRegs | ldRegs =>
    simp [encode, decodeWith, decodeClassF, opClass_wordXNN, fieldX_wordXNN, fieldNN_wordXNN]
  | seReg | sneReg | drw =>
    simp [encode, decodeWith, opClass_wordXYN, fieldX_wordXYN, fieldY_wordXYN, fieldN_wordXYN]
  | ldReg | or | and | xor | addReg | sub | shr | subn | shl =>
    simp [encode, decodeWith, decodeClass8, opClass_wordXYN, fieldX_wordXYN, fieldY_wordXYN, fieldN_wordXYN]

/-- A word of a class, a register and a low byte, written as a number, decodes to the instruction it encodes. -/
theorem decodeWith_ofNat_XNN (strict : Bool) (c : Nibble) (x : Reg) (nn : Byte) {i : Instr}
    (hi : encode i = wordXNN c x nn) :
    decodeWith strict (BitVec.ofNat 16 (c.toNat * 4096 + x.val * 256 + nn.toNat)) = .ok i := by
  rw [ofNat_eq_wordXNN, ← hi, decodeWith_encode]

/-- A word of class 8, written as a number with its operation first, decodes to the instruction it encodes (R66). -/
theorem decodeWith_ofNat_class8 (strict : Bool) (x y : Reg) (n : Nibble) {i : Instr}
    (hi : encode i = wordXYN 0x8 x y n) :
    decodeWith strict (BitVec.ofNat 16 (0x8000 + n.toNat + x.val * 256 + y.val * 16)) = .ok i := by
  have hdigits : 0x8000 + n.toNat + x.val * 256 + y.val * 16 = 0x8000 + x.val * 256 + y.val * 16 + n.toNat := by omega
  have hword : BitVec.ofNat 16 (0x8000 + x.val * 256 + y.val * 16 + n.toNat) = wordXYN 0x8 x y n := ofNat_eq_wordXYN 0x8 x y n
  rw [hdigits, hword, ← hi, decodeWith_encode]

end Sys2Proof

/-! ## What a register write changes, and what VF then holds (R100) -/

namespace Sys2Proof.Machine

/-- Another register file changes only the registers that read differently. -/
theorem changesOnly_withV {s : State} {v : Vector Byte 16} {regs : List Reg}
    (hr : ∀ r, r ∉ regs → (s.withV v).readV r = s.readV r) : ChangesOnly { regs := regs } s (s.withV v) :=
  ⟨hr, fun _ _ _ => rfl, fun _ => rfl, fun _ => rfl, fun _ => ⟨rfl, rfl⟩, fun _ => ⟨rfl, rfl⟩, fun _ => rfl, rfl, rfl⟩

theorem changesOnly_writeV (s : State) (x : Reg) (b : Byte) : ChangesOnly { regs := [x] } s (s.writeV x b) :=
  changesOnly_withV fun r hr => (s.readV_writeV x r b).trans (if_neg (by simpa using hr))

theorem changesOnly_writeResult (s : State) (x : Reg) (result : Byte) (flag : Bool) :
    ChangesOnly { regs := [x, flagReg] } s (s.writeResult x result flag) := by
  refine changesOnly_withV fun r hr => (s.readV_writeResult x r result flag).trans ?_
  obtain ⟨hx, hf⟩ : r ≠ x ∧ r ≠ flagReg := by simpa using hr
  rw [if_neg hf, if_neg hx]

theorem State.readV_writeV_self (s : State) (x : Reg) (b : Byte) : (s.writeV x b).readV x = b :=
  (s.readV_writeV x x b).trans (if_pos rfl)

/-- The destination holds the result, unless it is VF. -/
theorem State.readV_writeResult_self (s : State) {x : Reg} (result : Byte) (flag : Bool) (hx : x ≠ flagReg) :
    (s.writeResult x result flag).readV x = result := by
  rw [State.readV_writeResult, if_neg hx, if_pos rfl]

/-- VF holds the flag, whatever the destination, as a number, for a flag that reflects a proposition. -/
theorem State.readV_writeResult_flagReg_toNat (s : State) (x : Reg) (result : Byte) {flag : Bool} {p : Prop} [Decidable p]
    (h : flag = true ↔ p) : ((s.writeResult x result flag).readV flagReg).toNat = if p then 1 else 0 := by
  rw [State.readV_writeResult, if_pos rfl, flagByte_toNat]
  simp only [h]

theorem carryOut_iff (a b : Byte) : carryOut a b = true ↔ a.toNat + b.toNat > 255 := decide_eq_true_iff

theorem noBorrow_iff (a b : Byte) : noBorrow a b = true ↔ a.toNat ≥ b.toNat := decide_eq_true_iff

/-- Subtraction of bytes wraps modulo 256 (R112). -/
theorem toNat_sub_eq_emod (a b : Byte) : ((a - b).toNat : Int) = ((a.toNat : Int) - b.toNat) % 256 := by
  rw [BitVec.toNat_sub]
  omega

/-! ## The operations that write a flag (R107, R108, R110) -/

/-- Settles O12: the sum is written first and the carry last, so VF holds the carry at every X. -/
theorem addWithCarryFlag : Obligations.AddWithCarryFlag := by
  intro x y s
  refine ⟨fun strict => decodeWith_ofNat_class8 strict x y 0x4 rfl, _, rfl, fun hx => ?_,
    s.readV_writeResult_flagReg_toNat x _ (carryOut_iff _ _), changesOnly_writeResult s x _ _⟩
  rw [s.readV_writeResult_self _ _ hx]
  exact BitVec.toNat_add _ _

/-- A difference written with its no-borrow flag, as 8XY5 and 8XY7 both write it: the result, the flag and the frame. -/
theorem State.writeResult_sub (s : State) (x : Reg) (a b : Byte) :
    (x ≠ flagReg →
      (((s.writeResult x (a - b) (noBorrow a b)).readV x).toNat : Int) = ((a.toNat : Int) - b.toNat) % 256) ∧
    ((s.writeResult x (a - b) (noBorrow a b)).readV flagReg).toNat = (if a.toNat ≥ b.toNat then 1 else 0) ∧
    ChangesOnly { regs := [x, flagReg] } s (s.writeResult x (a - b) (noBorrow a b)) := by
  refine ⟨fun hx => ?_, s.readV_writeResult_flagReg_toNat x _ (noBorrow_iff a b), changesOnly_writeResult s x _ _⟩
  rw [s.readV_writeResult_self _ _ hx, toNat_sub_eq_emod]

/-- Settles O13: the difference of V[X] and V[Y] with its flag, both of the values before. -/
theorem subtractWithNoBorrowFlag : Obligations.SubtractWithNoBorrowFlag := fun x y s =>
  ⟨fun strict => decodeWith_ofNat_class8 strict x y 0x5 rfl, _, rfl, s.writeResult_sub x (s.readV x) (s.readV y)⟩

/-- Settles O14: the difference of V[Y] and V[X] with its flag, both of the values before. -/
theorem reverseSubtractWithNoBorrowFlag : Obligations.ReverseSubtractWithNoBorrowFlag := fun x y s =>
  ⟨fun strict => decodeWith_ofNat_class8 strict x y 0x7 rfl, _, rfl, s.writeResult_sub x (s.readV y) (s.readV x)⟩

/-! ## The operations that write no flag (R101 to R106) -/

/-- Settles O8: one register write, of the immediate. -/
theorem loadImmediate : Obligations.LoadImmediate := fun x nn s =>
  ⟨fun strict => decodeWith_ofNat_XNN strict 0x6 x nn rfl, _, rfl, s.readV_writeV_self x nn, changesOnly_writeV s x nn⟩

/-- Settles O9: one register write, of the sum modulo 256. -/
theorem addImmediateWraps : Obligations.AddImmediateWraps := by
  intro x nn s
  refine ⟨fun strict => decodeWith_ofNat_XNN strict 0x7 x nn rfl, _, rfl, ?_, changesOnly_writeV s x _⟩
  rw [State.readV_writeV_self]
  exact BitVec.toNat_add _ _

/-- Settles O10: one register write, of V[Y] as it was. -/
theorem copyRegister : Obligations.CopyRegister := fun x y s =>
  ⟨fun strict => decodeWith_ofNat_class8 strict x y 0x0 rfl, _, rfl, s.readV_writeV_self x _, changesOnly_writeV s x _⟩

/-- Settles O11: one register write each, of the operation on the operands as they were, read bit by bit. -/
theorem bitwiseOperations : Obligations.BitwiseOperations := by
  intro x y s
  refine ⟨fun strict => ⟨decodeWith_ofNat_class8 strict x y 0x1 rfl, decodeWith_ofNat_class8 strict x y 0x2 rfl,
      decodeWith_ofNat_class8 strict x y 0x3 rfl⟩,
    ⟨_, rfl, changesOnly_writeV s x _, fun k => ?_⟩, ⟨_, rfl, changesOnly_writeV s x _, fun k => ?_⟩,
    ⟨_, rfl, changesOnly_writeV s x _, fun k => ?_⟩⟩
  · rw [State.readV_writeV_self, BitVec.getLsbD_or]
  · rw [State.readV_writeV_self, BitVec.getLsbD_and]
  · rw [State.readV_writeV_self, BitVec.getLsbD_xor]

end Sys2Proof.Machine

/-! # Proofs: index and memory (43_index_memory.md)

The words of ANNN and of class F, the frames of a store, of a load and of a write of I, and the transfers of R122 to R124. -/

/-! ## The words of ANNN and of class F (R63, R71) -/

namespace Sys2Proof

/-- A word of a class and an address, written as a number, decodes to the instruction it encodes. -/
theorem decodeWith_ofNat_NNN (strict : Bool) (c : Nibble) (nnn : Addr) {i : Instr} (hi : encode i = wordNNN c nnn) :
    decodeWith strict (BitVec.ofNat 16 (c.toNat * 4096 + nnn.toNat)) = .ok i := by
  rw [ofNat_eq_wordNNN, ← hi, decodeWith_encode]

/-- A word of class F, written as a number with its operation first, decodes to the instruction it encodes (R71). -/
theorem decodeWith_ofNat_classF (strict : Bool) (x : Reg) (nn : Byte) {i : Instr} (hi : encode i = wordXNN 0xF x nn) :
    decodeWith strict (BitVec.ofNat 16 (0xF000 + nn.toNat + x.val * 256)) = .ok i := by
  rw [Nat.add_right_comm]
  exact decodeWith_ofNat_XNN strict 0xF x nn hi

end Sys2Proof

/-! ## What a store, a load and a write of I change -/

namespace Sys2Proof.Machine

/-- A write of I adds I to what has changed, and nothing else. -/
theorem ChangesOnly.setIdx {c : MayChange} {s t : State} (h : ChangesOnly c s t) (w : Word) :
    ChangesOnly { c with idx := true } s (t.setIdx w) := by
  obtain ⟨hregs, hbytes, -, hrest⟩ := h
  exact ⟨hregs, hbytes, Bool.noConfusion, hrest⟩

/-- Another I changes I only. -/
theorem changesOnly_setIdx (s : State) (w : Word) : ChangesOnly { idx := true } s (s.setIdx w) :=
  ChangesOnly.setIdx (c := {}) (changesOnly_withV fun _ _ => rfl) w

/-- A store changes only the addresses it stores to. -/
theorem changesOnly_storeBytes (s : State) (addr : Nat) (bytes : List Byte) :
    ChangesOnly { bytes := addressRange addr bytes.length } s (s.storeBytes addr bytes) := by
  refine ⟨fun _ _ => rfl, fun a ha hna => s.readMem_storeBytes_of_notMem addr a bytes ?_, fun _ => rfl, fun _ => rfl,
    fun _ => ⟨rfl, rfl⟩, fun _ => ⟨rfl, rfl⟩, fun _ => rfl, rfl, rfl⟩
  rwa [Nat.mod_eq_of_lt ha]

/-- The registers of a transfer receive the bytes loaded. -/
theorem State.readV_loadRegs_of_le (s : State) (addr : Nat) {x r : Reg} (hr : r.val ≤ x.val) :
    (s.loadRegs addr (x.val + 1)).readV r = s.readMem (addr + r.val) := by
  rw [State.readV_loadRegs _ _ _ (by omega), if_pos (by omega)]

/-- A load changes only the registers it loads. -/
theorem changesOnly_loadRegs (s : State) (addr : Nat) (x : Reg) :
    ChangesOnly { regs := regsUpTo x } s (s.loadRegs addr (x.val + 1)) := by
  have hload : s.loadRegs addr (x.val + 1) = s.withV (s.loadRegs addr (x.val + 1)).v := s.loadRegs_eq addr _
  rw [hload]
  refine changesOnly_withV fun r hr => ?_
  have hx : ¬ r.val < x.val + 1 := by rw [mem_regsUpTo, Fin.le_def] at hr; omega
  rw [← hload, State.readV_loadRegs _ _ _ (by omega), if_neg hx]

/-- I after a transfer, as a number: X + 1 higher modulo 65536 (R126). -/
theorem State.idxAfterTransfer_toNat (s : State) (x : Reg) :
    (s.idxAfterTransfer x).toNat = (s.idx.toNat + x.val + 1) % 65536 := by
  simp only [State.idxAfterTransfer, BitVec.toNat_add, BitVec.toNat_ofNat]
  omega

/-- The registers of a transfer are read back where FX55 stores them. -/
theorem State.readMem_storeBytes_regBytes (s : State) (addr : Nat) {x r : Reg} (hr : r.val ≤ x.val) :
    (s.storeBytes addr (s.regBytes x)).readMem (addr + r.val) = s.readV r := by
  have hlen := s.regBytes_length x
  rw [s.readMem_storeBytes addr r.val _ (by simp only [memSize]; omega) (by omega), State.regBytes_getElem]
  rfl

/-- The decimal digits of a byte are read back where FX33 stores them. -/
theorem State.readMem_storeBytes_decimalDigits_toNat (s : State) (addr : Nat) (v : Byte) :
    ((s.storeBytes addr (decimalDigits v)).readMem addr).toNat = v.toNat / 100 ∧
    ((s.storeBytes addr (decimalDigits v)).readMem (addr + 1)).toNat = v.toNat / 10 % 10 ∧
    ((s.storeBytes addr (decimalDigits v)).readMem (addr + 2)).toNat = v.toNat % 10 := by
  have hv := v.isLt
  have hread (k : Nat) (hk : k < 3) := s.readMem_storeBytes addr k (decimalDigits v) (by decide : 3 ≤ memSize) hk
  refine ⟨(congrArg BitVec.toNat (hread 0 (by decide))).trans ?_, (congrArg BitVec.toNat (hread 1 (by decide))).trans ?_,
    (congrArg BitVec.toNat (hread 2 (by decide))).trans ?_⟩
  all_goals
    simp only [decimalDigits, List.getElem_cons_zero, List.getElem_cons_succ, BitVec.toNat_ofNat]
    omega

/-! ## The transfers of V0 to VX (R123, R124) -/

/-- Settles O20: the store of V0 to VX at I, then the write of I. -/
theorem storeRegisters : Obligations.StoreRegisters := by
  intro x s
  have hframe := (changesOnly_storeBytes s s.dataAddress (s.regBytes x)).setIdx (s.idxAfterTransfer x)
  rw [State.regBytes_length] at hframe
  exact ⟨fun strict => decodeWith_ofNat_classF strict x 0x55 rfl, rfl, _, rfl,
    fun r hr => s.readMem_storeBytes_regBytes s.dataAddress hr, s.idxAfterTransfer_toNat x, hframe⟩

/-- Settles O21: the load of V0 to VX from I, then the write of I. -/
theorem loadRegisters : Obligations.LoadRegisters := fun x s =>
  ⟨fun strict => decodeWith_ofNat_classF strict x 0x65 rfl, rfl, _, rfl,
    fun _ hr => s.readV_loadRegs_of_le s.dataAddress hr, s.idxAfterTransfer_toNat x,
    (changesOnly_loadRegs s s.dataAddress x).setIdx _⟩

/-! ## The load of I and the decimal digits (R120, R122) -/

/-- Settles O17: one write of I, of the zero-extended address. -/
theorem loadIndexRegister : Obligations.LoadIndexRegister := fun nnn s =>
  ⟨fun strict => decodeWith_ofNat_NNN strict 0xA nnn rfl, _, rfl, zext16_toNat nnn, changesOnly_setIdx s _⟩

/-- Settles O19: one store, of the three digits. -/
theorem storeDecimalDigits : Obligations.StoreDecimalDigits := by
  intro x s
  obtain ⟨hhundreds, htens, hones⟩ := s.readMem_storeBytes_decimalDigits_toNat s.dataAddress (s.readV x)
  exact ⟨fun strict => decodeWith_ofNat_classF strict x 0x33 rfl, rfl, _, rfl, hhundreds, htens, hones,
    changesOnly_storeBytes s s.dataAddress (decimalDigits (s.readV x))⟩

end Sys2Proof.Machine

/-! # Proofs: display (44_display.md)

The word DXYN, what a write of the frame buffer and of VF changes, and the sprite of one instruction, pixel by pixel. -/

namespace Sys2Proof

/-- A word of class D, written as a number, decodes to the draw of its three fields (R131). -/
theorem decodeWith_ofNat_classD (strict : Bool) (x y : Reg) (n : Nibble) :
    decodeWith strict (BitVec.ofNat 16 (0xD000 + x.val * 256 + y.val * 16 + n.toNat)) = .ok (.drw x y n) := by
  have hword : BitVec.ofNat 16 (0xD000 + x.val * 256 + y.val * 16 + n.toNat) = encode (.drw x y n) :=
    ofNat_eq_wordXYN 0xD x y n
  rw [hword, decodeWith_encode]

end Sys2Proof

/-! ## What a write of the frame buffer and of VF changes -/

namespace Sys2Proof.Machine

/-- Another frame buffer changes the frame buffer and REDRAW only. -/
theorem changesOnly_putFrame (s : State) (fb : FrameBuffer) : ChangesOnly { frame := true } s (s.putFrame fb) :=
  ⟨fun _ _ => rfl, fun _ _ _ => rfl, fun _ => rfl, fun _ => rfl, fun _ => ⟨rfl, rfl⟩, Bool.noConfusion, fun _ => rfl, rfl, rfl⟩

/-- A write of a flag adds VF to what has changed, and nothing else. -/
theorem ChangesOnly.writeFlag {c : MayChange} {s t : State} (h : ChangesOnly c s t) (flag : Bool) :
    ChangesOnly { c with regs := flagReg :: c.regs } s (t.writeFlag flag) := by
  obtain ⟨hregs, hrest⟩ := h
  refine ⟨fun r hr => ?_, hrest⟩
  obtain ⟨hflag, hother⟩ : r ≠ flagReg ∧ r ∉ c.regs := by simpa using hr
  rw [State.readV_writeFlag, if_neg hflag, hregs r hother]

theorem flagByte_eq_one_iff (b : Bool) : flagByte b = 1 ↔ b = true := by cases b <;> decide

theorem State.readV_writeFlag_self (s : State) (flag : Bool) : (s.writeFlag flag).readV flagReg = flagByte flag :=
  (s.readV_writeFlag flagReg flag).trans (if_pos rfl)

/-! ## The sprite of one instruction (R131, R132)

A sprite has at most 15 rows, so no two of its bits land on one pixel and the rows' collisions are those of the whole. -/

theorem State.sprite_pixel (s : State) (x y : Reg) (n : Nibble) {px py : Nat} (hx : px < fbWidth) (hy : py < fbHeight) :
    (s.sprite x y n).1.pixel px py =
      (s.fb.pixel px py ^^ spriteBitAt s.mem s.dataAddress n.toNat (s.readV x).toNat (s.readV y).toNat px py) :=
  (Canvas.putSprite_spec (s.fb, false) s.mem s.dataAddress _ _ n.toNat (by omega)).1 px py hx hy

/-- The collision flag starts at 0, so a collision is one of this sprite with the frame buffer as it was. -/
theorem State.sprite_collision_iff (s : State) (x y : Reg) (n : Nibble) :
    (s.sprite x y n).2 = true ↔ ∃ px py, px < fbWidth ∧ py < fbHeight ∧ s.fb.pixel px py = true ∧
      spriteBitAt s.mem s.dataAddress n.toNat (s.readV x).toNat (s.readV y).toNat px py = true :=
  (Canvas.putSprite_spec (s.fb, false) s.mem s.dataAddress _ _ n.toNat (by omega)).2.trans
    (or_iff_right Bool.false_ne_true)

/-! ## The two display instructions (R130, R131) -/

/-- Settles O23: the sprite's pixels are written first and its collision flag last, into VF. -/
theorem drawSprite : Obligations.DrawSprite := by
  intro x y n s
  refine ⟨fun strict => decodeWith_ofNat_classD strict x y n, rfl, rfl, _, rfl, fun px py hx hy => s.sprite_pixel x y n hx hy,
    ?_, ?_, rfl, (changesOnly_putFrame s _).writeFlag _⟩
  · rw [State.readV_writeFlag_self]
    exact flagByte_eq_zero_or_one _
  · rw [State.readV_writeFlag_self, flagByte_eq_one_iff, State.sprite_collision_iff]

/-- Settles O22: one write of the frame buffer, of the clear one. -/
theorem clearDisplay : Obligations.ClearDisplay :=
  ⟨fun strict => decodeWith_encode strict .cls, rfl, fun s => ⟨_, rfl, FrameBuffer.pixel_clear, rfl, changesOnly_putFrame s _⟩⟩

end Sys2Proof.Machine

/-! # Proofs: faults and the host's operations (60_exceptions.md)

What a failed Reset leaves, and what the operations other than Reset do to a latched fault. -/

/-! ## The way out of the fault state (R143, R148) -/

namespace Sys2Proof.Machine

theorem resetOp_of_maxRom_lt (cfg : Config) (rom : List Byte) (free : State) (h : maxRom < rom.length) :
    resetOp cfg rom free = ({ free with fault := FaultRecord.romTooLarge }, .fatal FaultRecord.romTooLarge) := if_pos h

/-- A Reset with a ROM that fits gives the freshly loaded state (R170). -/
theorem eq_load_of_hostMove_reset {cfg : Config} {s t : State} {rom : List Byte} {r : HostResult}
    (h : hostMove cfg s (.reset rom) r t) (hrom : rom.length ≤ maxRom) : t = State.load cfg rom := by
  obtain ⟨free, -, -, ht⟩ := h
  rw [ht, resetOp_of_length_le cfg rom free hrom]

/-- A Reset with a ROM that does not fit latches RomTooLarge, whatever the rest of the state (R172). -/
theorem fault_of_hostMove_reset {cfg : Config} {s t : State} {rom : List Byte} {r : HostResult}
    (h : hostMove cfg s (.reset rom) r t) (hrom : maxRom < rom.length) : t.fault = FaultRecord.romTooLarge := by
  obtain ⟨free, -, -, ht⟩ := h
  rw [ht, resetOp_of_maxRom_lt cfg rom free hrom]

/-- With a fault latched, every operation but Reset keeps the record (R143). -/
theorem fault_eq_of_hostMove {cfg : Config} {s t : State} {op : HostOp} {r : HostResult} (hs : s.fault.kind ≠ .none)
    (h : hostMove cfg s op r t) (hop : ∀ rom, op ≠ .reset rom) : t.fault = s.fault := by
  cases op with
  | reset rom => exact absurd rfl (hop rom)
  | step =>
    obtain ⟨u, hu, -, rfl⟩ := h
    cases hu.symm.trans (stepOp_of_faulted (stepWith_of_fault hs) hs)
    rfl
  | tick =>
    obtain ⟨-, rfl⟩ := h
    exact s.tick_fault
  | consumeRedraw =>
    obtain ⟨-, rfl⟩ := h
    rw [State.consumeRedraw_state]

/-- Settles O40: the operations but Reset keep the record, and a Reset is one of a ROM that fits or of one that does not. -/
theorem onlyResetLeavesTheFaultState : Obligations.OnlyResetLeavesTheFaultState := by
  intro cfg s t op r hs h
  refine ⟨fun ht => ?_, ?_, ?_⟩
  · obtain ⟨rom, rfl⟩ : ∃ rom, op = .reset rom := by
      by_contra hop
      exact hs (by rw [← fault_eq_of_hostMove hs h (not_exists.1 hop), ht])
    refine ⟨rom, rfl, ?_⟩
    by_contra hrom
    rw [fault_of_hostMove_reset h (not_le.1 hrom)] at ht
    cases ht
  · rintro rom rfl hrom
    have ht := eq_load_of_hostMove_reset h hrom
    exact ⟨ht, by rw [ht]; rfl⟩
  · rintro rom rfl hrom
    rw [fault_of_hostMove_reset h hrom]
    rfl

/-! ## The timers (R152) -/

/-- Settles O52: Tick is one `timerDown` of each timer. -/
theorem tickLowersEachTimerToZero : Obligations.TickLowersEachTimerToZero := fun s =>
  ⟨rfl, timerDown_toNat s.dt, timerDown_toNat s.st⟩

end Sys2Proof.Machine

/-! # Proofs: reset (70_reset_and_hazards.md)

The program as the first steps after Reset see it: the ROM, continued by zeros. -/

/-! ## The entry point (R173) -/

namespace Sys2Proof.Machine

/-- After Reset the program area holds the ROM's bytes, a missing byte being 0. -/
theorem State.readMem_load_program (cfg : Config) (rom : List Byte) (hrom : rom.length ≤ maxRom) (k : Nat) (hk : k < maxRom) :
    (State.load cfg rom).readMem (0x200 + k) = (rom[k]?).getD 0 := by
  simp only [maxRom] at hk
  by_cases h : k < rom.length
  · rw [State.readMem_load_rom cfg rom hrom k h, List.getElem?_eq_getElem h, Option.getD_some]
  · rw [State.readMem_load_rest cfg rom hrom _ (by omega) (by omega) (by omega), List.getElem?_eq_none (not_lt.1 h),
      Option.getD_none]

/-- Settles O57: the first fetch reads the program's bytes 0 and 1. -/
theorem entryPointIsTheRomsFirstWord : Obligations.EntryPointIsTheRomsFirstWord := by
  intro cfg rom free hrom
  rw [resetOp_of_length_le cfg rom free hrom]
  have hpc : (State.load cfg rom).pc = 0x200 := rfl
  have hhi : (State.load cfg rom).readMem 0x200 = (rom[0]?).getD 0 := State.readMem_load_program cfg rom hrom 0 (by decide)
  have hlo : (State.load cfg rom).readMem (0x200 + 1) = (rom[1]?).getD 0 := State.readMem_load_program cfg rom hrom 1 (by decide)
  refine ⟨hpc, ?_⟩
  rw [← hhi, ← hlo]
  exact State.fetch_toNat _

end Sys2Proof.Machine

/-! # Proofs: decoder, encoder and assembler (30_encoding.md)

Decoding and encoding as inverses of each other, the legal words by class, and the assembler form of R74. -/

/-! ## Decoding and encoding (R63, R74) -/

namespace Sys2Proof

/-- The two bytes of an encoding are read back as its word, and the bytes after them are the rest (R60). -/
theorem decodeBytes_encodeBytes (strict : Bool) (i : Instr) (rest : List Byte) :
    decodeBytes strict (encodeBytes i ++ rest) = .ok (i, rest) := by
  simp only [encodeBytes, List.cons_append, List.nil_append, decodeBytes, Machine.opcodeOfBytes_high_low, decodeWith_encode]

/-- Settles O26: the word by the decoder's classes, the two bytes by the word they form. -/
theorem decodingAnEncodedInstructionGivesItBack : Obligations.DecodingAnEncodedInstructionGivesItBack :=
  fun strict i => ⟨decodeWith_encode strict i, decodeBytes_encodeBytes strict i⟩

/-- Settles O25: each word is the encoding of the instruction its pattern names. -/
theorem sampleWordsDecode : Obligations.SampleWordsDecode :=
  ⟨decodeWith_encode _ .cls, decodeWith_encode _ .ret, decodeWith_encode _ (.call 0xF0E),
    decodeWith_encode _ (.seImm 0xC 0x42), decodeWith_encode _ (.seReg 1 2), decodeWith_encode _ (.ldImm 0xA 0x05),
    decodeWith_encode _ (.addReg 0xA 0xB), decodeWith_encode _ (.shl 1 0), decodeWith_encode _ (.ldI 0x300),
    decodeWith_encode _ (.drw 5 0xA 7), decodeWith_encode _ (.ldRegs 2), decodeWith_encode _ (.bcd 0)⟩

/-! A word put together again from the fields the decoder reads and the digits it has tested. -/

theorem wordXYN_fieldX_fieldY {op : Word} {c n : Nibble} (hc : op.toNat / 4096 = c.toNat) (hn : op.toNat % 16 = n.toNat) :
    wordXYN c (fieldX op) (fieldY op) n = op := by
  rw [← opClass_toNat, BitVec.toNat_inj] at hc
  rw [← hc, ← (fieldN_eq_iff op n).2 hn, wordXYN_fields]

theorem wordXNN_fieldX {op : Word} {c : Nibble} {nn : Byte} (hc : op.toNat / 4096 = c.toNat)
    (hnn : op.toNat % 256 = nn.toNat) : wordXNN c (fieldX op) nn = op := by
  rw [← opClass_toNat, BitVec.toNat_inj] at hc
  rw [← hc, ← (fieldNN_eq_iff op nn).2 hnn, wordXNN_fields]

theorem wordNNN_fieldNNN {op : Word} {c : Nibble} (hc : op.toNat / 4096 = c.toNat) : wordNNN c (fieldNNN op) = op := by
  apply BitVec.eq_of_toNat_eq
  rw [wordNNN_toNat, fieldNNN_toNat]
  omega

/-- Class 8: the encoder writes back the low nibble that selected the operation. -/
theorem encode_of_decodeClass8 {op : Word} {i : Instr} (hc : op.toNat / 4096 = 8) (h : decodeClass8 op = .ok i) :
    encode i = op := by
  unfold decodeClass8 at h
  rw [fieldN_toNat] at h
  split at h
  case h_10 => cases h
  all_goals
    next hn =>
      cases h
      exact wordXYN_fieldX_fieldY hc hn

/-- Class F: the encoder writes back the low byte that selected the operation. -/
theorem encode_of_decodeClassF {op : Word} {i : Instr} (hc : op.toNat / 4096 = 0xF) (h : decodeClassF op = .ok i) :
    encode i = op := by
  unfold decodeClassF at h
  simp only [fieldNN_eq_iff] at h
  split_ifs at h with h1E h33 h55 h65
  all_goals cases h
  · exact wordXNN_fieldX hc h1E
  · exact wordXNN_fieldX hc h33
  · exact wordXNN_fieldX hc h55
  · exact wordXNN_fieldX hc h65

/-- With `STRICT_SKIP_DECODE` the decoder tests every digit that the encoder writes as a constant. -/
theorem encode_of_decodeWith_true {op : Word} {i : Instr} (h : decodeWith true op = .ok i) : encode i = op := by
  unfold decodeWith at h
  rw [opClass_toNat] at h
  split at h
  case h_1 hc =>
    split_ifs at h with hcls hret
    · cases h; exact hcls.symm
    · cases h; exact hret.symm
  case h_2 hc | h_3 hc | h_11 hc => cases h; exact wordNNN_fieldNNN hc
  case h_4 hc | h_5 hc | h_7 hc | h_8 hc => cases h; exact wordXNN_fieldX hc (fieldNN_toNat op).symm
  case h_6 hc | h_10 hc =>
    split_ifs at h with hn
    cases h
    exact wordXYN_fieldX_fieldY hc ((fieldN_eq_iff op 0).1 (by simpa using hn))
  case h_9 hc => exact encode_of_decodeClass8 hc h
  case h_14 hc => cases h; exact wordXYN_fieldX_fieldY hc (fieldN_toNat op).symm
  case h_12 hc | h_13 hc | h_15 hc => cases h
  case h_16 =>
    simp only [imp_false] at *
    exact encode_of_decodeClassF (by omega) h

/-- Settles O27, by the class of the word. -/
theorem everyDecodedWordIsAnEncoding : Obligations.EveryDecodedWordIsAnEncoding :=
  fun _ _ h => encode_of_decodeWith_true h

/-! ## Legality by class (R65 to R71) -/

/-- A word decodes exactly when it is legal. -/
theorem exists_ok_iff_wordLegal (strict : Bool) (op : Word) :
    (∃ i, decodeWith strict op = .ok i) ↔ wordLegal strict op = true :=
  (followsMap_decodeWith strict op).exists_ok_iff

/-- A word that is not legal is rejected. -/
theorem exists_error_of_not_wordLegal {strict : Bool} {op : Word} (h : ¬ wordLegal strict op = true) :
    ∃ e, decodeWith strict op = .error e := by
  cases hd : decodeWith strict op with
  | ok i => exact absurd ((exists_ok_iff_wordLegal strict op).1 ⟨i, hd⟩) h
  | error e => exact ⟨e, rfl⟩

/-- A rejected word is not legal. -/
theorem wordLegal_eq_false_of_error {strict : Bool} {op : Word} {e : DecodeError} (h : decodeWith strict op = .error e) :
    wordLegal strict op = false := by
  have hfollows := followsMap_decodeWith strict op
  rw [h] at hfollows
  exact Bool.eq_false_iff.2 hfollows

/-- Settles O29: in each class one condition of the opcode map remains. -/
theorem legalityByClass : Obligations.LegalityByClass := by
  intro strict op
  simp only [exists_ok_iff_wordLegal]
  refine ⟨fun hc => ?_, fun hc => exists_error_of_not_wordLegal ?_, fun hc => ?_, fun hc => ?_, fun hc => ?_, fun hc => ?_⟩
  all_goals rw [wordLegal_iff]
  · exact .inr (.inl hc)
  · simp only [List.mem_cons, List.not_mem_nil, or_false] at hc
    rcases hc with hc | hc | hc
    all_goals simp [hc]
  · rw [← BitVec.toNat_inj (x := op), ← BitVec.toNat_inj (x := op)]
    suffices h : op.toNat % 4096 = 0x0E0 ∨ op.toNat % 4096 = 0x0EE ↔ op.toNat = 0x00E0 ∨ op.toNat = 0x00EE by
      simpa [hc] using h
    omega
  · suffices h : op.toNat % 16 ∈ [0, 1, 2, 3, 4, 5, 6, 7, 0xE] ↔ op.toNat % 16 ≤ 7 ∨ op.toNat % 16 = 0xE by
      simpa [hc] using h
    simp only [List.mem_cons, List.not_mem_nil, or_false]
    omega
  · simp [hc]
  · simp only [List.mem_cons, List.not_mem_nil, or_false] at hc
    rcases hc with hc | hc
    all_goals simp [hc, imp_iff_not_or]

/-! ## The assembler form (R74) -/

theorem Instr.wellFormed_toAsm (i : Instr) : i.toAsm.wellFormed = true := by
  cases i with
  | cls | ret => rfl
  | _ =>
    simp only [Instr.toAsm, AsmLine.wellFormed, decide_eq_true_eq]
    omega

theorem regOfNat_val (r : Reg) : regOfNat r.val = r := Fin.ext (Nat.mod_eq_of_lt r.isLt)

theorem Instr.shape_toAsm (i : Instr) : i.toAsm.shape = some i := by
  cases i
  all_goals simp only [Instr.toAsm, AsmLine.shape, regOfNat_val, BitVec.ofNat_toNat, BitVec.setWidth_eq]

/-- A well-formed line of an instruction assembles to the instruction's two bytes. -/
theorem AsmLine.assemble_of_shape {line : AsmLine} {i : Instr} (hwf : line.wellFormed = true) (hshape : line.shape = some i) :
    line.assemble = some (encodeBytes i) := by
  cases line with
  | op name args => simp only [AsmLine.assemble, hwf, hshape, if_true, Option.map_some]
  | db n => cases hshape

/-- Every line R74 allows, other than a data byte, has the shape of an instruction. -/
theorem AsmLine.exists_shape_of_wellFormed {name : AsmName} {args : List AsmOperand}
    (h : (AsmLine.op name args).wellFormed = true) : ∃ i, (AsmLine.op name args).shape = some i := by
  unfold AsmLine.wellFormed at h
  split at h
  case h_26 heq => cases heq
  case h_27 => cases h
  all_goals next heq => cases heq; exact ⟨_, rfl⟩

/-- A line assembles exactly when R74 allows it. -/
theorem AsmLine.isSome_assemble (line : AsmLine) : line.assemble.isSome = line.wellFormed := by
  cases hwf : line.wellFormed with
  | false => simp only [AsmLine.assemble, hwf, Bool.false_eq_true, if_false, Option.isSome_none]
  | true =>
    cases line with
    | db n => simp only [AsmLine.assemble, hwf, if_true, Option.isSome_some]
    | op name args =>
      obtain ⟨i, hi⟩ := AsmLine.exists_shape_of_wellFormed hwf
      rw [AsmLine.assemble_of_shape hwf hi, Option.isSome_some]

/-- Settles O30: every operand of an instruction is in its range and is read back as it was written. -/
theorem assemblerFormRoundTrips : Obligations.AssemblerFormRoundTrips :=
  ⟨fun i => ⟨i.wellFormed_toAsm, i.shape_toAsm, AsmLine.assemble_of_shape i.wellFormed_toAsm i.shape_toAsm⟩,
    AsmLine.isSome_assemble⟩

end Sys2Proof

/-! # Proofs: the remaining instructions (41_control_flow.md to 44_display.md)

The skip on two registers that differ, the addition to I, the two shifts under their parameter, and a sprite drawn twice. -/

/-! ## The word of class 9 (R63, R68) -/

namespace Sys2Proof

theorem decodeWith_class9 (strict : Bool) (x y : Reg) (n : Nibble) :
    decodeWith strict (wordXYN 0x9 x y n) =
      if strict && n != 0 then .error .class9LowNibble else .ok (.sneReg x y) := by
  simp [decodeWith, opClass_wordXYN, fieldX_wordXYN, fieldY_wordXYN, fieldN_wordXYN]

end Sys2Proof

namespace Sys2Proof.Machine

/-! ## The skip and the addition to I (R96, R121) -/

/-- Settles O7: the skip on the inequality of two registers; the decoder's class 9 at n = 0 and at n ≠ 0 under each parameter. -/
theorem skipIfRegistersDiffer : Obligations.SkipIfRegistersDiffer := by
  intro x y s
  have hword (n : Nibble) :
      BitVec.ofNat 16 (0x9000 + x.val * 256 + y.val * 16 + n.toNat) = wordXYN 0x9 x y n := ofNat_eq_wordXYN 0x9 x y n
  have hzero : BitVec.ofNat 16 (0x9000 + x.val * 256 + y.val * 16) = encode (.sneReg x y) := hword 0
  refine ⟨fun strict => hzero ▸ decodeWith_encode strict _, fun n hn => ⟨?_, .class9LowNibble, ?_⟩,
    ⟨_, rfl, s.skipIf_pc_toNat (bne_iff_toNat_ne _ _), changesOnly_skipIf s _⟩⟩
  · rw [hword, decodeWith_class9, Bool.false_and, if_neg Bool.false_ne_true]
  · rw [hword, decodeWith_class9, Bool.true_and, if_pos (bne_iff_ne.2 hn)]

/-- Settles O18: one write of I, of the 16-bit sum. -/
theorem addRegisterToIndex : Obligations.AddRegisterToIndex := by
  intro x s
  have hzext : ((s.readV x).setWidth 16).toNat = (s.readV x).toNat := BitVec.toNat_setWidth_of_le (by decide)
  refine ⟨fun strict => decodeWith_ofNat_classF strict x 0x1E rfl, _, rfl, ?_, changesOnly_setIdx s _⟩
  rw [State.setIdx_idx, BitVec.toNat_add, hzext]

/-! ## The shifts (R109, R111) -/

theorem State.shiftOperand_eq (s : State) (usesVy : Bool) (x y : Reg) :
    s.shiftOperand usesVy x y = s.readV (if usesVy then y else x) := by
  cases usesVy with
  | true => rfl
  | false => rfl

theorem shiftedOutRight_iff (t : Byte) : shiftedOutRight t = true ↔ t.toNat % 2 = 1 := by
  rw [shiftedOutRight, BitVec.getLsbD, Nat.testBit_eq_decide_div_mod_eq, decide_eq_true_iff, pow_zero, Nat.div_one]

theorem shiftedOutLeft_iff (t : Byte) : shiftedOutLeft t = true ↔ t.toNat / 128 = 1 := by
  have ht := t.isLt
  rw [shiftedOutLeft, BitVec.getLsbD, Nat.testBit_eq_decide_div_mod_eq, decide_eq_true_iff]
  omega

/-- A shift right by one: half the operand, the odd bit in VF, nothing else. -/
theorem State.shiftRight_spec (s : State) (x : Reg) (t : Byte) :
    (x ≠ flagReg → ((s.shiftRight x t).readV x).toNat = t.toNat / 2) ∧
    ((s.shiftRight x t).readV flagReg).toNat = t.toNat % 2 ∧ ChangesOnly { regs := [x, flagReg] } s (s.shiftRight x t) := by
  refine ⟨fun hx => ?_, ?_, changesOnly_writeResult s x _ _⟩
  · rw [State.shiftRight, s.readV_writeResult_self _ _ hx, BitVec.toNat_ushiftRight, Nat.shiftRight_eq_div_pow, pow_one]
  · rw [State.shiftRight, s.readV_writeResult_flagReg_toNat x _ (shiftedOutRight_iff t)]
    split <;> omega

/-- A shift left by one: twice the operand modulo 256, the top bit in VF, nothing else. -/
theorem State.shiftLeft_spec (s : State) (x : Reg) (t : Byte) :
    (x ≠ flagReg → ((s.shiftLeft x t).readV x).toNat = t.toNat * 2 % 256) ∧
    ((s.shiftLeft x t).readV flagReg).toNat = t.toNat / 128 ∧ ChangesOnly { regs := [x, flagReg] } s (s.shiftLeft x t) := by
  have ht := t.isLt
  refine ⟨fun hx => ?_, ?_, changesOnly_writeResult s x _ _⟩
  · rw [State.shiftLeft, s.readV_writeResult_self _ _ hx, BitVec.toNat_shiftLeft, Nat.shiftLeft_eq, pow_one]
  · rw [State.shiftLeft, s.readV_writeResult_flagReg_toNat x _ (shiftedOutLeft_iff t)]
    split <;> omega

/-- Settles O15: one shift of the operand that `SHIFT_USES_VY` names, which is V[Y] at the default. -/
theorem shiftRightTakesItsOperandByParameter : Obligations.ShiftRightTakesItsOperandByParameter := by
  intro x y s
  have hspec (usesVy : Bool) := s.shiftRight_spec x (s.shiftOperand usesVy x y)
  simp only [State.shiftOperand_eq] at hspec
  exact ⟨fun strict => decodeWith_ofNat_class8 strict x y 0x6 rfl, ⟨_, rfl, hspec true⟩,
    fun cfg => ⟨_, rfl, s.shiftOperand_eq cfg.shiftUsesVy x y ▸ hspec cfg.shiftUsesVy⟩⟩

/-- Settles O16: one shift of the operand that `SHIFT_USES_VY` names, which is V[Y] at the default. -/
theorem shiftLeftTakesItsOperandByParameter : Obligations.ShiftLeftTakesItsOperandByParameter := by
  intro x y s
  have hspec (usesVy : Bool) := s.shiftLeft_spec x (s.shiftOperand usesVy x y)
  simp only [State.shiftOperand_eq] at hspec
  exact ⟨fun strict => decodeWith_ofNat_class8 strict x y 0xE rfl, ⟨_, rfl, hspec true⟩,
    fun cfg => ⟨_, rfl, s.shiftOperand_eq cfg.shiftUsesVy x y ▸ hspec cfg.shiftUsesVy⟩⟩

/-! ## A sprite drawn twice (R133) -/

/-- The bit of DXYN's sprite that lands on a pixel. -/
def State.spriteBit (s : State) (x y : Reg) (n : Nibble) (px py : Nat) : Bool :=
  spriteBitAt s.mem s.dataAddress n.toNat (s.readV x).toNat (s.readV y).toNat px py

theorem FrameBuffer.pixel_mod (fb : FrameBuffer) (px py : Nat) :
    fb.pixel (px % fbWidth) (py % fbHeight) = fb.pixel px py := by
  simp only [FrameBuffer.pixel, Nat.mod_mod]

/-- The pixels after a draw. -/
theorem pixel_of_execDrw {x y : Reg} {n : Nibble} {s t : State} (h : exec (.drw x y n) s = .next t) {px py : Nat}
    (hx : px < fbWidth) (hy : py < fbHeight) : t.fb.pixel px py = (s.fb.pixel px py ^^ s.spriteBit x y n px py) := by
  cases h
  exact s.sprite_pixel x y n hx hy

/-- VF after a draw is 1 where a lit pixel meets a sprite bit. -/
theorem readV_flagReg_of_execDrw {x y : Reg} {n : Nibble} {s t : State} (h : exec (.drw x y n) s = .next t) {px py : Nat}
    (hx : px < fbWidth) (hy : py < fbHeight) (hlit : s.fb.pixel px py = true) (hbit : s.spriteBit x y n px py = true) :
    t.readV flagReg = 1 := by
  cases h
  rw [State.readV_writeFlag_self, flagByte_eq_one_iff]
  exact (s.sprite_collision_iff x y n).2 ⟨px, py, hx, hy, hlit, hbit⟩

/-- A draw leaves its own sprite where it is: of the operands it writes none but VF. -/
theorem spriteBit_of_execDrw {x y : Reg} {n : Nibble} {s t : State} (hx : x ≠ flagReg) (hy : y ≠ flagReg)
    (h : exec (.drw x y n) s = .next t) : t.spriteBit x y n = s.spriteBit x y n := by
  have hexec : execWith Config.default (.drw x y n) s = .next t := h
  have hread (r : Reg) (hr : r ≠ flagReg) : t.readV r = s.readV r :=
    execWith_readV_of_notMem_writtenRegs hexec (List.mem_singleton.not.2 hr)
  funext px py
  rw [State.spriteBit, State.spriteBit, hread x hx, hread y hy]
  cases h
  rfl

/-- Settles O24: XOR with the same sprite twice, and a pixel turned on is lit under one of its bits. -/
theorem drawingTwiceRestoresTheFrame : Obligations.DrawingTwiceRestoresTheFrame := by
  intro x y n s t u hx hy hst htu
  have hbits := spriteBit_of_execDrw hx hy hst
  refine ⟨FrameBuffer.ext_pixel fun px py hpx hpy => ?_, fun ⟨px, py, hdark, hlit⟩ => ?_⟩
  · rw [pixel_of_execDrw htu hpx hpy, hbits, pixel_of_execDrw hst hpx hpy, Bool.xor_assoc, Bool.xor_self, Bool.xor_false]
  · rw [← FrameBuffer.pixel_mod] at hdark hlit
    have hpx : px % fbWidth < fbWidth := Nat.mod_lt _ (by decide)
    have hpy : py % fbHeight < fbHeight := Nat.mod_lt _ (by decide)
    refine readV_flagReg_of_execDrw htu hpx hpy hlit ?_
    rwa [pixel_of_execDrw hst hpx hpy, hdark, Bool.false_xor, ← hbits] at hlit

end Sys2Proof.Machine

/-! # Proofs: what a step does and leaves unchanged (10_state.md, 40_step_cycle.md, 60_exceptions.md)

The faults a step can raise, each with its cause; PC after a step; the elements each instruction may change; REDRAW, the timers
and the bytes a store leaves in memory; Reset's size boundary; the invariant. -/

/-! ## The faults of a step (R80, R85, R141 to R146) -/

namespace Sys2Proof.Machine

/-- The state a fault of a step leaves: PC advanced, the latch naming the fetch address and the fetched word (R85). -/
def State.faulted (s : State) (kind : FaultKind) : State := s.advance.raise kind s.pc s.fetch

theorem State.faulted_eq (s : State) (kind : FaultKind) :
    s.faulted kind = { s with pc := s.pc + 2, fault := ⟨kind, s.pc, s.fetch⟩ } := rfl

/-- Why a step raises each kind of fault; RomTooLarge is raised by none. -/
def State.Raises (s : State) (strict : Bool) : FaultKind → Prop
  | .none => False
  | .romTooLarge => False
  | .unknownOpcode => wordLegal strict s.fetch = false
  | .stackOverflow => (∃ nnn, s.fetch = encode (.call nnn)) ∧ s.sp = 16
  | .stackUnderflow => s.fetch = encode .ret ∧ s.sp = 0

theorem State.Raises.kind_cases {s : State} {strict : Bool} {kind : FaultKind} (h : s.Raises strict kind) :
    kind = .unknownOpcode ∨ kind = .stackOverflow ∨ kind = .stackUnderflow := by
  cases kind with
  | none | romTooLarge => exact h.elim
  | unknownOpcode => exact .inl rfl
  | stackOverflow => exact .inr (.inl rfl)
  | stackUnderflow => exact .inr (.inr rfl)

/-- 2NNN met with a full stack. -/
theorem stepWith_of_call_full {cfg : Config} {s : State} {nnn : Addr} (hr : s.fault.kind = .none)
    (hi : decodeWith cfg.strictSkipDecode s.fetch = .ok (.call nnn)) (hsp : s.sp.val = 16) :
    stepWith cfg s = .next (s.faulted .stackOverflow) := by
  have hexec := execCall_of_full s.advance nnn hsp
  rw [advance_pc_sub_two, ← eq_of_decodeWith_call hi] at hexec
  exact (stepWith_of_ok hr hi).trans hexec

/-- 00EE met with an empty stack. -/
theorem stepWith_of_ret_empty {cfg : Config} {s : State} (hr : s.fault.kind = .none)
    (hi : decodeWith cfg.strictSkipDecode s.fetch = .ok .ret) (hsp : s.sp.val = 0) :
    stepWith cfg s = .next (s.faulted .stackUnderflow) := by
  have hexec := execRet_of_zero s.advance hsp
  rw [advance_pc_sub_two, ← eq_of_decodeWith_ret hi] at hexec
  exact (stepWith_of_ok hr hi).trans hexec

/-- A step of a running machine completes its instruction and leaves FAULT, or raises a fault for its cause. -/
theorem stepWith_running_cases {cfg : Config} {s t : State} (hr : s.fault.kind = .none) (h : stepWith cfg s = .next t) :
    (t.fault = s.fault ∧ ∃ i, decodeWith cfg.strictSkipDecode s.fetch = .ok i ∧ execWith cfg i s.advance = .next t) ∨
    ∃ kind, s.Raises cfg.strictSkipDecode kind ∧ t = s.faulted kind := by
  obtain ⟨hf, -⟩ | ⟨-, i, hi, hexec⟩ | ⟨-, e, he, ht⟩ := stepWith_cases h
  · exact absurd hr hf
  · obtain hkeep | ⟨nnn, rfl, hsp, -⟩ | ⟨rfl, hsp, -⟩ := execWith_fault hexec
    · exact .inl ⟨hkeep, i, hi, hexec⟩
    · cases h.symm.trans (stepWith_of_call_full hr hi hsp)
      exact .inr ⟨.stackOverflow, ⟨⟨nnn, eq_of_decodeWith_call hi⟩, Fin.ext hsp⟩, rfl⟩
    · cases h.symm.trans (stepWith_of_ret_empty hr hi hsp)
      exact .inr ⟨.stackUnderflow, ⟨eq_of_decodeWith_ret hi, Fin.ext hsp⟩, rfl⟩
  · exact .inr ⟨.unknownOpcode, wordLegal_eq_false_of_error he, ht⟩

/-- A step of a running machine that latches a fault has raised it. -/
theorem exists_raises_of_latched {cfg : Config} {s t : State} (hr : s.fault.kind = .none) (h : stepWith cfg s = .next t)
    (ht : t.fault.kind ≠ .none) : ∃ kind, s.Raises cfg.strictSkipDecode kind ∧ t = s.faulted kind := by
  obtain ⟨hkeep, -⟩ | hraise := stepWith_running_cases hr h
  · exact absurd (hkeep ▸ hr) ht
  · exact hraise

/-- A fault of a step changes PC and FAULT only. -/
theorem changesOnly_faulted (s : State) (kind : FaultKind) : ChangesOnly { pc := true, fault := true } s (s.faulted kind) :=
  ⟨fun _ _ => rfl, fun _ _ _ => rfl, fun _ => rfl, Bool.noConfusion, fun _ => ⟨rfl, rfl⟩, fun _ => ⟨rfl, rfl⟩,
    Bool.noConfusion, rfl, rfl⟩

/-- Settles O36: the word has no row, so the decoder rejects it. -/
theorem illegalWordRaisesUnknownOpcode : Obligations.IllegalWordRaisesUnknownOpcode := by
  intro cfg s hr hillegal
  obtain ⟨e, he⟩ := exists_error_of_not_wordLegal (Bool.eq_false_iff.1 hillegal)
  exact ⟨s.faulted .unknownOpcode, stepWith_of_error hr he, rfl, rfl, changesOnly_faulted s _⟩

/-- Settles O37: a latched fault was raised, and a raise leaves the state named. -/
theorem faultsArePrecise : Obligations.FaultsArePrecise := by
  intro cfg s t hr h ht
  obtain ⟨kind, hraise, rfl⟩ := exists_raises_of_latched hr h ht
  exact ⟨kind, hraise.kind_cases, s.faulted_eq kind⟩

/-- Settles O39: the raise of a call on a full stack and that of a return on an empty one, whose word is 00EE. -/
theorem stackErrorsOfAStep : Obligations.StackErrorsOfAStep := by
  intro cfg s hr
  refine ⟨fun nnn hi hsp => stepWith_of_call_full hr hi hsp, fun hi hsp => ?_⟩
  have hstep := stepWith_of_ret_empty hr hi hsp
  rwa [State.faulted_eq, eq_of_decodeWith_ret hi] at hstep

/-- Settles O38: a latched fault stops the step, and neither Tick nor ConsumeRedraw asks for it. -/
theorem faultStateIsSticky : Obligations.FaultStateIsSticky := by
  intro cfg s hf
  refine ⟨?_, stepOp_of_faulted (stepWith_of_fault hf) hf, ⟨rfl, rfl, rfl⟩, rfl⟩
  rw [step_eq_stepWith_default, stepWith_of_fault hf]

/-! ## PC after a step (R16) -/

/-- Settles O31: the step of a running machine, and the advance as a write of PC. -/
theorem stepRunsTheDecodedInstruction : Obligations.StepRunsTheDecodedInstruction := fun s =>
  ⟨fun _ hr hi => step_of_ok hr hi, rfl, step_eq_stepWith_default s⟩

theorem State.loadRegs_pc (s : State) (addr n : Nat) : (s.loadRegs addr n).pc = s.pc := by rw [State.loadRegs_eq]

theorem State.skipIf_advance_pc (s : State) (cond : Bool) :
    (s.advance.skipIf cond).pc = if cond then s.pc + 4 else s.pc + 2 := by
  rw [State.skipIf_eq, State.setPc_pc, State.advance_pc, BitVec.add_assoc]
  rfl

/-- PC after an instruction that completes is the one R16's table gives. -/
theorem execWith_advance_pc {cfg : Config} {i : Instr} {s t : State} (h : execWith cfg i s.advance = .next t)
    (ht : t.fault.kind = .none) : t.pc = pcAfter i s := by
  cases i with
  | ret =>
    by_cases hsp : 0 < s.sp.val
    · obtain ⟨w, u, hu, hw, hstate, -⟩ := execRet_of_pos s.advance hsp
      cases hu.symm.trans h
      rw [hstate, pcAfter]
      exact (congrArg (Option.getD · 0) hw).symm
    · cases (execRet_of_zero s.advance (Nat.eq_zero_of_not_pos hsp)).symm.trans h
      cases ht
  | call nnn =>
    by_cases hsp : s.sp.val < 16
    · obtain ⟨u, hu, hstate, -⟩ := execCall_of_lt s.advance nnn hsp
      cases hu.symm.trans h
      rw [hstate]
      rfl
    · cases (execCall_of_full s.advance nnn (by rw [State.advance_sp]; omega)).symm.trans h
      cases ht
  | seImm x nn | sneImm x nn | seReg x y | sneReg x y =>
    cases h
    rw [State.skipIf_advance_pc]
    simp only [State.readV_advance, beq_iff_eq, bne_iff_ne, pcAfter]
  | ldRegs x =>
    cases h
    rw [State.setIdx_pc, State.loadRegs_pc]
    rfl
  | _ => cases h; rfl

/-- Settles O35: an instruction that completes by R16's table, a raise by its own state. -/
theorem programCounterAfterEveryInstruction : Obligations.ProgramCounterAfterEveryInstruction := by
  intro cfg s t i hr hi h
  by_cases ht : t.fault.kind = .none
  · rw [if_pos ht]
    exact execWith_advance_pc ((stepWith_of_ok hr hi).symm.trans h) ht
  · rw [if_neg ht]
    obtain ⟨kind, -, rfl⟩ := exists_raises_of_latched hr h ht
    rfl

/-! ## A call and its return (R90, R92) -/

/-- 2NNN, then 00EE from the state the next step advances: the entry pushed stays behind above SP, and nothing else is left. -/
theorem exec_ret_of_exec_call (s : State) (nnn : Addr) (hsp : s.sp.val < 16) :
    ∃ t, exec (.call nnn) s = .next t ∧ t = { s with pc := zext16 nnn, stack := t.stack, sp := t.sp } ∧
      t.sp.val = s.sp.val + 1 ∧ exec .ret t.advance = .next { s with stack := s.stack.set s.sp.val s.pc hsp } := by
  obtain ⟨t, hcall, ht, htsp⟩ := execCall_of_lt s nnn hsp
  obtain ⟨w, u, hret, hw, hu, husp⟩ := execRet_of_pos t.advance (by rw [State.advance_sp]; omega)
  rw [State.advance_sp] at hw husp
  have hback : u.sp = s.sp := Fin.ext (by omega)
  have hpopped : w = s.pc := by
    rw [State.advance_stack, htsp, Nat.add_sub_cancel, ht, Vector.getElem?_set_self] at hw
    exact (Option.some.inj hw).symm
  refine ⟨t, hcall, by rw [ht], htsp, ?_⟩
  rw [hret, hu, hback, hpopped, ht]
  rfl

/-- Settles O41: the word at the target is fetched from the memory the call has left alone, and the return pops what the call
pushed. -/
theorem callThenReturnComesBack : Obligations.CallThenReturnComesBack := by
  intro s nnn hr hcall hsp htarget
  obtain ⟨t, hexec, ht, htsp, hret⟩ := exec_ret_of_exec_call s.advance nnn hsp
  have hfetch : t.fetch = 0x00EE := by
    have hpc : t.pc.toNat = nnn.toNat := by rw [ht]; exact zext16_toNat nnn
    rw [State.fetch, hpc, ← htarget]
    exact State.wordAt_congr (by rw [ht]; rfl) _
  have hrun : t.fault.kind = .none := by rw [ht]; exact hr
  have hdecode : decode t.fetch = .ok .ret := hfetch ▸ decodeWith_encode _ .ret
  refine ⟨t, _, (step_of_ok hr hcall).trans hexec, htsp, (step_of_ok hrun hdecode).trans hret, rfl, rfl, fun k hk => ?_,
    changesOnly_pc_stack s _ _ _⟩
  exact Vector.getElem?_set_ne hsp (Nat.ne_of_gt hk)

end Sys2Proof.Machine

/-! ## What each instruction may change (R14, R19, R22 to R24) -/

namespace Sys2Proof.Machine

/-- What an instruction may change, after the tables of 10_state.md. -/
def mayChange (s : State) : Instr → MayChange
  | .cls => { frame := true }
  | .ret => { pc := true, stack := true, fault := true }
  | .call _ => { pc := true, stack := true, fault := true }
  | .jp _ | .seImm _ _ | .sneImm _ _ | .seReg _ _ | .sneReg _ _ => { pc := true }
  | .ldImm x _ | .addImm x _ | .ldReg x _ | .or x _ | .and x _ | .xor x _ => { regs := [x] }
  | .addReg x _ | .sub x _ | .subn x _ | .shr x _ | .shl x _ => { regs := [x, flagReg] }
  | .ldI _ | .addI _ => { idx := true }
  | .drw _ _ _ => { regs := [flagReg], frame := true }
  | .bcd _ => { bytes := addressRange s.dataAddress 3 }
  | .stRegs x => { bytes := addressRange s.dataAddress (x.val + 1), idx := true }
  | .ldRegs x => { regs := regsUpTo x, idx := true }

/-- A return or a call, whether it completes or raises, leaves everything but PC, the stack and FAULT. -/
theorem changesOnly_pc_stack_fault (s : State) (w : Word) (stack : Vector Word stackDepth) (sp : Fin 17) (fault : FaultRecord) :
    ChangesOnly { pc := true, stack := true, fault := true } s { s with pc := w, stack := stack, sp := sp, fault := fault } :=
  ⟨fun _ _ => rfl, fun _ _ _ => rfl, fun _ => rfl, Bool.noConfusion, Bool.noConfusion, fun _ => ⟨rfl, rfl⟩, Bool.noConfusion,
    rfl, rfl⟩

/-- An instruction changes nothing but what it may. -/
theorem execWith_changesOnly {cfg : Config} {i : Instr} {s t : State} (h : execWith cfg i s = .next t) :
    ChangesOnly (mayChange s i) s t := by
  cases i with
  | ret =>
    by_cases hsp : 0 < s.sp.val
    · obtain ⟨w, u, hu, -, hstate, -⟩ := execRet_of_pos s hsp
      cases hu.symm.trans h
      exact hstate ▸ changesOnly_pc_stack_fault s _ _ _ _
    · cases (execRet_of_zero s (by omega)).symm.trans h
      exact changesOnly_pc_stack_fault s _ _ _ _
  | call nnn =>
    by_cases hsp : s.sp.val < 16
    · obtain ⟨u, hu, hstate, -⟩ := execCall_of_lt s nnn hsp
      cases hu.symm.trans h
      exact hstate ▸ changesOnly_pc_stack_fault s _ _ _ _
    · cases (execCall_of_full s nnn (by omega)).symm.trans h
      exact changesOnly_pc_stack_fault s _ _ _ _
  | cls => cases h; exact changesOnly_putFrame s _
  | jp _ => cases h; exact changesOnly_setPc s _
  | seImm _ _ | sneImm _ _ | seReg _ _ | sneReg _ _ => cases h; exact changesOnly_skipIf s _
  | ldImm _ _ | addImm _ _ | ldReg _ _ | or _ _ | and _ _ | xor _ _ => cases h; exact changesOnly_writeV s _ _
  | addReg _ _ | sub _ _ | subn _ _ | shr _ _ | shl _ _ => cases h; exact changesOnly_writeResult s _ _ _
  | ldI _ | addI _ => cases h; exact changesOnly_setIdx s _
  | drw _ _ _ => cases h; exact (changesOnly_putFrame s _).writeFlag _
  | bcd x => cases h; exact changesOnly_storeBytes s s.dataAddress (decimalDigits (s.readV x))
  | stRegs x =>
    cases h
    have hframe := (changesOnly_storeBytes s s.dataAddress (s.regBytes x)).setIdx (s.idxAfterTransfer x)
    rwa [State.regBytes_length] at hframe
  | ldRegs x => cases h; exact (changesOnly_loadRegs s s.dataAddress x).setIdx _

theorem execWith_timers {cfg : Config} {i : Instr} {s t : State} (h : execWith cfg i s = .next t) :
    t.dt = s.dt ∧ t.st = s.st := by
  obtain ⟨-, -, -, -, -, -, -, htimers⟩ := execWith_changesOnly h
  exact htimers

theorem mayChange_idx {s : State} {i : Instr} (h : (mayChange s i).idx = true) :
    (∃ n, i = .ldI n) ∨ ∃ x, i = .addI x ∨ i = .stRegs x ∨ i = .ldRegs x := by
  cases i with
  | ldI | addI | stRegs | ldRegs => simp
  | _ => cases h

theorem mayChange_stack {s : State} {i : Instr} (h : (mayChange s i).stack = true) : i = .ret ∨ ∃ n, i = .call n := by
  cases i with
  | ret | call => simp
  | _ => cases h

theorem mayChange_frame (s : State) (i : Instr) : (mayChange s i).frame = touchesFrame i := by cases i <;> rfl

/-- Settles O46: a changed element is one the instruction may change. -/
theorem whoChangesIndexStackFrameAndTimers : Obligations.WhoChangesIndexStackFrameAndTimers := by
  intro cfg i s t h
  obtain ⟨-, -, hidx, -, hstack, hframe, -, htimers⟩ := execWith_changesOnly h
  refine ⟨fun hne => mayChange_idx (s := s) ?_, fun hne => mayChange_stack (s := s) ?_, fun hne => ?_, htimers⟩
  · by_contra hno
    exact hne (hidx (Bool.eq_false_iff.2 hno))
  · by_contra hno
    obtain ⟨hentries, hsp⟩ := hstack (Bool.eq_false_iff.2 hno)
    exact hne.elim (· hentries) (· hsp)
  · rw [← mayChange_frame s]
    by_contra hno
    exact hne (hframe (Bool.eq_false_iff.2 hno)).1

/-! ## REDRAW (R24, R86, R158) -/

/-- The two instructions that write the frame buffer set REDRAW, the others keep it. -/
theorem execWith_redraw {cfg : Config} {i : Instr} {s t : State} (h : execWith cfg i s = .next t) :
    t.redraw = (s.redraw || touchesFrame i) := by
  cases hi : touchesFrame i with
  | false =>
    obtain ⟨-, -, -, -, -, hframe, -, -⟩ := execWith_changesOnly h
    rw [(hframe ((mayChange_frame s i).trans hi)).2, Bool.or_false]
  | true =>
    rw [Bool.or_true]
    cases i with
    | cls | drw => cases h; rfl
    | _ => cases hi

/-- What a step with its result did: the step, and the result of the state after it. -/
theorem eq_of_stepOp {cfg : Config} {s t : State} {r : StepResult} (h : stepOp cfg s = .next (t, r)) :
    stepWith cfg s = .next t ∧ r = stepResult cfg s t := by
  obtain ⟨u, hu⟩ := stepWith_next cfg s
  cases (stepOp_of_stepWith hu).symm.trans h
  exact ⟨hu, rfl⟩

/-- REDRAW after a step is REDRAW before, or the step's result. -/
theorem stepWith_redraw {cfg : Config} {s t : State} (h : stepWith cfg s = .next t) :
    t.redraw = (s.redraw || decide (stepResult cfg s t = .ok true)) := by
  by_cases ht : t.fault.kind = .none
  · obtain ⟨hf, rfl⟩ | ⟨-, i, hi, hexec⟩ | ⟨-, e, -, rfl⟩ := stepWith_cases h
    · exact absurd ht hf
    · rw [stepResult_of_running cfg s ht, State.nextTouches_of_ok hi, execWith_redraw hexec]
      simp
    · cases ht
  · have hkeep : t.redraw = s.redraw := by
      by_cases hr : s.fault.kind = .none
      · obtain ⟨kind, -, rfl⟩ := exists_raises_of_latched hr h ht
        rfl
      · cases h.symm.trans (stepWith_of_fault hr)
        rfl
    rw [hkeep, stepResult_of_fault cfg s ht]
    simp

/-- Settles O45: the step by its result, ConsumeRedraw by its definition. -/
theorem redrawIsStickyUntilConsumed : Obligations.RedrawIsStickyUntilConsumed := by
  refine ⟨fun cfg s t r h => ?_, fun s => ⟨rfl, rfl, ?_, rfl⟩⟩
  · obtain ⟨hstep, rfl⟩ := eq_of_stepOp h
    exact stepWith_redraw hstep
  · exact ⟨fun _ _ => rfl, fun _ _ _ => rfl, fun _ => rfl, fun _ => rfl, fun _ => ⟨rfl, rfl⟩, Bool.noConfusion, fun _ => rfl,
      rfl, rfl⟩

/-! ## The timers from Reset on (R153, R156) -/

/-- No step changes a timer. -/
theorem stepWith_timers {cfg : Config} {s t : State} (h : stepWith cfg s = .next t) : t.dt = s.dt ∧ t.st = s.st := by
  obtain ⟨-, rfl⟩ | ⟨-, i, -, hexec⟩ | ⟨-, e, -, rfl⟩ := stepWith_cases h
  · exact ⟨rfl, rfl⟩
  · obtain ⟨hdt, hst⟩ := execWith_timers hexec
    exact ⟨hdt, hst⟩
  · exact ⟨rfl, rfl⟩

theorem timers_eq_zero_of_reachable {cfg : Config} {s : State} (h : Reachable cfg s) : s.dt = 0 ∧ s.st = 0 := by
  induction h with
  | load rom hrom => exact ⟨rfl, rfl⟩
  | step s t _ hstep ih =>
    obtain ⟨hdt, hst⟩ := stepWith_timers hstep
    rwa [hdt, hst]
  | tick s _ ih =>
    obtain ⟨hdt, hst⟩ := ih
    rw [State.tick_dt, State.tick_st, hdt, hst]
    exact ⟨rfl, rfl⟩
  | consume s _ ih => exact ih

/-- Settles O54: both timers are 0 after Reset, and every operation keeps them so. -/
theorem timersStayZeroFromReset : Obligations.TimersStayZeroFromReset := by
  intro cfg s h
  obtain ⟨hdt, hst⟩ := timers_eq_zero_of_reachable h
  exact ⟨hdt, hst, by rw [State.tone, hst]; rfl⟩

/-! ## Stored bytes around the top of memory (R42, R50) -/

/-- Settles O48: the place of an address among the bytes is its distance from the first, modulo 4096. -/
theorem storedBytesReadBackAroundMemory : Obligations.StoredBytesReadBackAroundMemory := by
  intro s addr a bytes hlen
  have hplace (k : Nat) (hk : k < bytes.length) :
      a % memSize = (addr + k) % memSize ↔ (a + 4096 - addr % 4096) % 4096 = k := by
    simp only [memSize]
    omega
  by_cases hk : (a + 4096 - addr % 4096) % 4096 < bytes.length
  · rw [List.getElem?_eq_getElem hk, Option.getD_some, ← s.readMem_storeBytes addr _ bytes hlen hk]
    exact Memory.read_congr _ _ _ ((hplace _ hk).2 rfl)
  · rw [List.getElem?_eq_none (not_lt.1 hk), Option.getD_none]
    refine Memory.read_writeBytes_of_notMem _ _ _ _ fun k hklen hsame => hk ?_
    rwa [(hplace k hklen).1 hsame]

/-! ## The size boundary of Reset (R147, R177) -/

/-- Settles O56: the check is on the length alone, the largest ROM fills the program area, and a step raises no RomTooLarge. -/
theorem romSizeBoundary : Obligations.RomSizeBoundary := by
  intro cfg rom free
  refine ⟨fun hlong => ?_, fun hfits => ?_, fun s t hr h ht => ?_⟩
  · rw [resetOp_of_maxRom_lt cfg rom free hlong]
    exact ⟨rfl, rfl⟩
  · rw [resetOp_of_length_le cfg rom free hfits.le]
    exact ⟨rfl, rfl, fun k hk => State.readMem_load_rom cfg rom hfits.le k (hfits ▸ hk)⟩
  · obtain ⟨kind, hraise, rfl⟩ := exists_raises_of_latched hr h (by rw [ht]; exact nofun)
    cases ht
    exact hraise

/-! ## The invariant -/

/-- A fault raised for its cause is latched truthfully. -/
theorem State.Raises.faultTruthful {s : State} {strict : Bool} {kind : FaultKind} (h : s.Raises strict kind) :
    (s.faulted kind).faultTruthful strict := by
  cases kind with
  | none | romTooLarge => exact h.elim
  | unknownOpcode => exact ⟨rfl, rfl, h⟩
  | stackOverflow =>
    obtain ⟨⟨nnn, hfetch⟩, hsp⟩ := h
    exact ⟨rfl, rfl, (congrArg opClass hfetch).trans (opClass_wordNNN 0x2 nnn), hsp⟩
  | stackUnderflow => exact ⟨rfl, rfl, h⟩

/-- Without a fault only the record matters. -/
theorem State.faultTruthful_of_fault_eq {s t : State} {strict : Bool} (hr : s.fault.kind = .none)
    (h : s.faultTruthful strict) (hfault : t.fault = s.fault) : t.faultTruthful strict := by
  unfold State.faultTruthful at h ⊢
  rw [hfault]
  rwa [hr] at h ⊢

theorem stepWith_mem_wf {cfg : Config} {s t : State} (hwf : s.mem.wf) (h : stepWith cfg s = .next t) : t.mem.wf := by
  obtain ⟨-, rfl⟩ | ⟨-, i, -, hexec⟩ | ⟨-, e, -, rfl⟩ := stepWith_cases h
  · exact hwf
  · rw [execWith_mem_eq hexec]
    exact Memory.writeBytes_wf _ _ _ hwf
  · exact hwf

/-- A step at any configuration keeps the invariant. -/
theorem stepWith_inv {cfg : Config} {s t : State} (hinv : s.Inv cfg.strictSkipDecode) (h : stepWith cfg s = .next t) :
    t.Inv cfg.strictSkipDecode := by
  obtain ⟨hwf, htruth⟩ := hinv
  refine ⟨stepWith_mem_wf hwf h, ?_⟩
  by_cases hr : s.fault.kind = .none
  · obtain ⟨hkeep, -⟩ | ⟨kind, hraise, rfl⟩ := stepWith_running_cases hr h
    · exact State.faultTruthful_of_fault_eq hr htruth hkeep
    · exact hraise.faultTruthful
  · cases h.symm.trans (stepWith_of_fault hr)
    exact htruth

/-- Settles O58: the step at the default configuration. -/
theorem everyStepKeepsTheInvariant : Obligations.EveryStepKeepsTheInvariant := by
  intro s t hinv h
  rw [step_eq_stepWith_default] at h
  exact stepWith_inv hinv h

/-- Reset, successful or not, establishes the invariant, whatever canonical memory a failed one leaves. -/
theorem resetOp_inv (cfg : Config) (rom : List Byte) {free : State} (hfree : free.mem.wf) :
    (resetOp cfg rom free).1.Inv cfg.strictSkipDecode := by
  by_cases hrom : rom.length ≤ maxRom
  · rw [resetOp_of_length_le cfg rom free hrom]
    exact ⟨Memory.load_wf cfg.font rom, rfl, rfl⟩
  · rw [resetOp_of_maxRom_lt cfg rom free (not_le.1 hrom)]
    exact ⟨hfree, rfl, rfl⟩

/-- Settles O59: Reset establishes the invariant, a step keeps it, Tick and ConsumeRedraw touch nothing it speaks of. -/
theorem everyHostOperationKeepsTheInvariant : Obligations.EveryHostOperationKeepsTheInvariant := by
  intro cfg s t op r hinv h
  cases op with
  | reset rom =>
    obtain ⟨free, hfree, -, rfl⟩ := h
    exact resetOp_inv cfg rom hfree
  | step =>
    obtain ⟨⟨u, r'⟩, hu, -, rfl⟩ := h
    exact stepWith_inv hinv (eq_of_stepOp hu).1
  | tick =>
    obtain ⟨-, rfl⟩ := h
    exact hinv
  | consumeRedraw =>
    obtain ⟨-, rfl⟩ := h
    exact hinv

/-- Settles O60: no cell, no fault. -/
theorem resetMeetsTheInvariant : Obligations.ResetMeetsTheInvariant := ⟨State.reset_mem_wf, rfl, rfl⟩

end Sys2Proof.Machine

/-! # Proofs: what no step can observe (10_state.md, 60_exceptions.md)

Stale stack entries, bits 15 to 12 of I and the timers: one theorem about execution, from which each statement follows. -/

namespace Sys2Proof.Machine

/-! ## States that differ in hidden parts only -/

/-- The state with another stack, another I and other timers. -/
def State.withHidden (s : State) (stack : Vector Word stackDepth) (idx : Word) (dt st : Byte) : State :=
  { s with stack := stack, idx := idx, dt := dt, st := st }

@[simp] theorem State.withHidden_sp (s : State) (stack : Vector Word stackDepth) (idx : Word) (dt st : Byte) :
    (s.withHidden stack idx dt st).sp = s.sp := rfl

@[simp] theorem State.withHidden_stack (s : State) (stack : Vector Word stackDepth) (idx : Word) (dt st : Byte) :
    (s.withHidden stack idx dt st).stack = stack := rfl

/-- The other stack and the other I look the same to a step: I modulo `m`, and the stack entries below SP or, with `all`, every one.
The modulus is 4096, of which bits 15 to 12 of I are no part, or 65536. -/
def SameVisible (m : Nat) (all : Bool) (s : State) (stack : Vector Word stackDepth) (idx : Word) : Prop :=
  (m = 4096 ∨ m = 65536) ∧ idx.toNat % m = s.idx.toNat % m ∧
    ∀ k : Nat, (all = true ∨ k < s.sp.val) → stack[k]? = s.stack[k]?

section Hidden

variable {m : Nat} {all : Bool} {s t : State} {stack : Vector Word stackDepth} {idx : Word}

theorem SameVisible.dataAddress_mod (h : SameVisible m all s stack idx) : idx.toNat % memSize = s.dataAddress % memSize := by
  obtain ⟨hm, hidx, -⟩ := h
  simp only [memSize, State.dataAddress]
  rcases hm with rfl | rfl <;> omega

/-- The same addition to I on both sides. -/
theorem SameVisible.add (h : SameVisible m all s stack idx) (w : Word) :
    SameVisible m all (s.setIdx (s.idx + w)) stack (idx + w) := by
  obtain ⟨hm, hidx, hstack⟩ := h
  refine ⟨hm, ?_, hstack⟩
  simp only [State.setIdx_idx, BitVec.toNat_add]
  rcases hm with rfl | rfl <;> omega

/-- The same value into I on both sides. -/
theorem SameVisible.setIdx (h : SameVisible m all s stack idx) (w : Word) : SameVisible m all (s.setIdx w) stack w := by
  obtain ⟨hm, -, hstack⟩ := h
  exact ⟨hm, rfl, hstack⟩

theorem SameVisible.stack_eq (h : SameVisible m true s stack idx) : stack = s.stack := by
  obtain ⟨-, -, hstack⟩ := h
  refine Vector.ext fun k hk => ?_
  have := hstack k (.inl rfl)
  rwa [Vector.getElem?_eq_getElem hk, Vector.getElem?_eq_getElem hk, Option.some.injEq] at this

theorem SameVisible.idx_eq (h : SameVisible 65536 all s stack idx) : idx = s.idx := by
  obtain ⟨-, hidx, -⟩ := h
  exact BitVec.eq_of_toNat_eq (by omega)

/-! ## Execution (R33, R42) -/

theorem State.skipIf_withHidden (s : State) (cond : Bool) (dt st : Byte) :
    (s.withHidden stack idx dt st).skipIf cond = (s.skipIf cond).withHidden stack idx dt st := by
  cases cond with
  | false => rfl
  | true => rfl

/-- A load reads its address modulo 4096. -/
theorem State.loadRegs_withHidden (s : State) {a b : Nat} (hab : a % memSize = b % memSize) (dt st : Byte) (n : Nat) :
    (s.withHidden stack idx dt st).loadRegs a n = (s.loadRegs b n).withHidden stack idx dt st := by
  induction n with
  | zero => rfl
  | succ k ih =>
    have hread : (s.withHidden stack idx dt st).readMem (a + k) = s.readMem (b + k) :=
      Memory.read_congr s.mem _ _ (Nat.ModEq.add_right k hab)
    rw [State.loadRegs, State.loadRegs, ih, hread]
    rfl

/-- A sprite reads its address modulo 4096. -/
theorem Canvas.putSprite_address_congr (c : Canvas) (mem : Memory) {a b : Nat} (hab : a % memSize = b % memSize) (x y n : Nat) :
    c.putSprite mem a x y n = c.putSprite mem b x y n := by
  induction n with
  | zero => rfl
  | succ r ih =>
    rw [Canvas.putSprite, Canvas.putSprite, ih, Memory.read_congr mem _ _ (Nat.ModEq.add_right r hab)]

/-- 00EE pops an entry below SP. -/
theorem execRet_withHidden (h : exec .ret s = .next t) (hv : SameVisible m all s stack idx) (dt st : Byte) :
    exec .ret (s.withHidden stack idx dt st) = .next (t.withHidden stack idx dt st) ∧ SameVisible m all t stack idx := by
  obtain ⟨hm, hidx, hstack⟩ := hv
  by_cases hsp : 0 < s.sp.val
  · obtain ⟨w, u, hu, hw, hstate, husp⟩ := execRet_of_pos s hsp
    cases hu.symm.trans h
    obtain ⟨w', t', ht', hw', hstate', hsp'⟩ := execRet_of_pos (s.withHidden stack idx dt st) hsp
    rw [State.withHidden_stack, State.withHidden_sp, hstack _ (.inr (Nat.sub_one_lt_of_lt hsp)), hw, Option.some.injEq] at hw'
    have hdepth : t'.sp = t.sp := Fin.ext (by rw [State.withHidden_sp] at hsp'; omega)
    refine ⟨?_, hm, by rw [hstate, hidx], fun k hk => ?_⟩
    · rw [ht', hstate', hdepth, ← hw', hstate]
      rfl
    · rw [hstack k (hk.imp_right fun hlt => by omega), hstate]
  · cases (execRet_of_zero s (by omega)).symm.trans h
    exact ⟨execRet_of_zero (s.withHidden stack idx dt st) (Nat.eq_zero_of_not_pos hsp), hm, hidx, hstack⟩

/-- 2NNN pushes the same entry at the same depth, and what lies above SP stays hidden. -/
theorem execCall_withHidden {nnn : Addr} (h : exec (.call nnn) s = .next t) (hv : SameVisible m all s stack idx)
    (dt st : Byte) : ∃ stack', exec (.call nnn) (s.withHidden stack idx dt st) = .next (t.withHidden stack' idx dt st) ∧
      SameVisible m all t stack' idx := by
  obtain ⟨hm, hidx, hstack⟩ := hv
  by_cases hsp : s.sp.val < 16
  · obtain ⟨u, hu, hstate, husp⟩ := execCall_of_lt s nnn hsp
    cases hu.symm.trans h
    obtain ⟨t', ht', hstate', hsp'⟩ := execCall_of_lt (s.withHidden stack idx dt st) nnn hsp
    have hdepth : t'.sp = t.sp := Fin.ext (by rw [State.withHidden_sp] at hsp'; omega)
    refine ⟨stack.set s.sp.val s.pc hsp, ?_, hm, by rw [hstate, hidx], fun k hk => ?_⟩
    · rw [ht', hstate', hdepth, hstate]
      rfl
    · rw [hstate, Vector.getElem?_set, Vector.getElem?_set]
      by_cases hkey : s.sp.val = k
      · rw [if_pos hkey, if_pos hkey]
      · rw [if_neg hkey, if_neg hkey, hstack k (hk.imp_right fun hlt => by omega)]
  · have hfull : s.sp.val = 16 := by omega
    cases (execCall_of_full s nnn hfull).symm.trans h
    exact ⟨stack, execCall_of_full (s.withHidden stack idx dt st) nnn hfull, hm, hidx, hstack⟩

/-- No instruction observes a hidden part: with another stack, another I and other timers that look the same, it does the same. -/
theorem execWith_withHidden {cfg : Config} {i : Instr} (h : execWith cfg i s = .next t) (hv : SameVisible m all s stack idx)
    (dt st : Byte) : ∃ stack' idx', execWith cfg i (s.withHidden stack idx dt st) = .next (t.withHidden stack' idx' dt st) ∧
      SameVisible m all t stack' idx' := by
  have haddr := hv.dataAddress_mod
  cases i with
  | ret => exact ⟨stack, idx, execRet_withHidden h hv dt st⟩
  | call nnn =>
    obtain ⟨stack', hexec, hv'⟩ := execCall_withHidden h hv dt st
    exact ⟨stack', idx, hexec, hv'⟩
  | ldI nnn => cases h; exact ⟨stack, zext16 nnn, rfl, hv.setIdx _⟩
  | addI x => cases h; exact ⟨stack, idx + (s.readV x).setWidth 16, rfl, hv.add _⟩
  | bcd x =>
    cases h
    refine ⟨stack, idx, ?_, hv⟩
    have hmem := Memory.writeBytes_congr s.mem idx.toNat s.dataAddress (decimalDigits (s.readV x)) haddr
    exact congrArg (fun mem => Host.Outcome.next { s.withHidden stack idx dt st with mem := mem }) hmem
  | stRegs x =>
    cases h
    refine ⟨stack, idx + BitVec.ofNat 16 (x.val + 1), ?_, hv.add _⟩
    have hmem := Memory.writeBytes_congr s.mem idx.toNat s.dataAddress (s.regBytes x) haddr
    exact congrArg
      (fun mem => Host.Outcome.next { s.withHidden stack (idx + BitVec.ofNat 16 (x.val + 1)) dt st with mem := mem }) hmem
  | ldRegs x =>
    cases h
    refine ⟨stack, idx + BitVec.ofNat 16 (x.val + 1), ?_, ?_⟩
    · have hload := s.loadRegs_withHidden (stack := stack) (idx := idx) haddr dt st (x.val + 1)
      exact congrArg (fun u => Host.Outcome.next (State.setIdx u (idx + BitVec.ofNat 16 (x.val + 1)))) hload
    · rw [State.loadRegs_eq]
      exact hv.add _
  | drw x y n =>
    cases h
    refine ⟨stack, idx, ?_, hv⟩
    have hsprite : (s.withHidden stack idx dt st).sprite x y n = s.sprite x y n :=
      Canvas.putSprite_address_congr _ s.mem haddr _ _ _
    simp only [execWith, exec, execDrw, hsprite]
    rfl
  | seImm | sneImm | seReg | sneReg =>
    cases h
    refine ⟨stack, idx, congrArg Host.Outcome.next (s.skipIf_withHidden _ dt st), ?_⟩
    rw [State.skipIf_eq]
    exact hv
  | _ => cases h; exact ⟨stack, idx, rfl, hv⟩

/-! ## The step with its result (R86) -/

/-- No step observes a hidden part, in its next state or in its result. -/
theorem stepOp_withHidden {cfg : Config} {r : StepResult} (h : stepOp cfg s = .next (t, r))
    (hv : SameVisible m all s stack idx) (dt st : Byte) :
    ∃ stack' idx', stepOp cfg (s.withHidden stack idx dt st) = .next (t.withHidden stack' idx' dt st, r) ∧
      SameVisible m all t stack' idx' := by
  obtain ⟨hstep, rfl⟩ := eq_of_stepOp h
  suffices hsuff : ∃ stack' idx', stepWith cfg (s.withHidden stack idx dt st) = .next (t.withHidden stack' idx' dt st) ∧
      SameVisible m all t stack' idx' by
    obtain ⟨stack', idx', hstep', hv'⟩ := hsuff
    exact ⟨stack', idx', stepOp_of_stepWith hstep', hv'⟩
  obtain ⟨hf, rfl⟩ | ⟨hr, i, hi, hexec⟩ | ⟨hr, e, he, rfl⟩ := stepWith_cases hstep
  · exact ⟨stack, idx, stepWith_of_fault hf, hv⟩
  · obtain ⟨stack', idx', hexec', hv'⟩ := execWith_withHidden hexec (stack := stack) (idx := idx) hv dt st
    exact ⟨stack', idx', (stepWith_of_ok (s := s.withHidden stack idx dt st) hr hi).trans hexec', hv'⟩
  · exact ⟨stack, idx, stepWith_of_error (s := s.withHidden stack idx dt st) hr he, hv⟩

end Hidden

/-- Settles O50: another stack, the same below SP. -/
theorem staleStackEntriesAreUnobservable : Obligations.StaleStackEntriesAreUnobservable := by
  intro cfg s s' t r ⟨hs', hlive⟩ h
  have hv : SameVisible 65536 false s s'.stack s.idx := by
    refine ⟨.inr rfl, rfl, fun k hk => ?_⟩
    have hk : k < s.sp.val := hk.resolve_left Bool.false_ne_true
    have hdepth : k < stackDepth := by simp only [stackDepth]; omega
    rw [Vector.getElem?_eq_getElem hdepth, Vector.getElem?_eq_getElem hdepth, hlive k hdepth hk]
  obtain ⟨stack', idx', hop, hv'⟩ := stepOp_withHidden h hv s.dt s.st
  obtain ⟨hdt, hst⟩ := stepWith_timers (eq_of_stepOp h).1
  have hidx := hv'.idx_eq
  obtain ⟨-, -, hstack⟩ := hv'
  rw [hs']
  refine ⟨_, hop, by rw [hidx, ← hdt, ← hst]; rfl, fun k hk hlt => ?_⟩
  have hentry := hstack k (.inr hlt)
  rwa [Vector.getElem?_eq_getElem hk, Vector.getElem?_eq_getElem hk, Option.some.injEq] at hentry

/-- Settles O51: another I, the same modulo 4096. -/
theorem highIndexBitsAreUnobservable : Obligations.HighIndexBitsAreUnobservable := by
  intro cfg s s' t r ⟨hs', hlow⟩ h
  have hv : SameVisible 4096 true s s.stack s'.idx := ⟨.inl rfl, hlow, fun _ _ => rfl⟩
  obtain ⟨stack', idx', hop, hv'⟩ := stepOp_withHidden h hv s.dt s.st
  obtain ⟨hdt, hst⟩ := stepWith_timers (eq_of_stepOp h).1
  have hstack := hv'.stack_eq
  obtain ⟨-, hlow', -⟩ := hv'
  rw [hs']
  exact ⟨_, hop, by rw [hstack, ← hdt, ← hst]; rfl, hlow'⟩

/-- Settles O53: other timers, and the ones a step leaves are those a tick lowers. -/
theorem tickAndStepCommute : Obligations.TickAndStepCommute := by
  intro cfg s t r h
  have hv : SameVisible 65536 true s s.stack s.idx := ⟨.inr rfl, rfl, fun _ _ => rfl⟩
  obtain ⟨stack', idx', hop, hv'⟩ := stepOp_withHidden h hv (timerDown s.dt) (timerDown s.st)
  obtain ⟨hdt, hst⟩ := stepWith_timers (eq_of_stepOp h).1
  have htick : t.tick = t.withHidden t.stack t.idx (timerDown s.dt) (timerDown s.st) := by
    rw [← hdt, ← hst]
    rfl
  rw [hv'.stack_eq, hv'.idx_eq] at hop
  rw [htick]
  exact hop

end Sys2Proof.Machine
